-- ==== Sys2Proof/Word.lean ====
section
/-! DEFINITION. The widths the spec names: the byte of the wire and of every header register, the 9-bit position
counter, the 16-bit duty value (spec/10_state.md R21, spec/20_memory.md R60). -/

namespace Sys2Proof

/-- One byte: an input byte, a header register, a buffer cell, the stored-byte counter (R21, R55). -/
abbrev Byte := BitVec 8

/-- The position counter's value: POS_WIDTH is 9 in this spec (R11, R21). -/
abbrev PosWord := BitVec 9

/-- A duty value on the sink interface, a u16 (R60). -/
abbrev Duty := BitVec 16

end Sys2Proof
end

