-- ==== Sys2Proof/Config.lean ====
section
/-! DEFINITION. What an implementation fixes (spec/00_scope.md R11) and the values the spec leaves open. The constants
of R12 are not parameters: they stand where they are used, in Decode.lean and Machine/Operands.lean. -/

namespace Sys2Proof

/-- The sink's four channels (R60, R61). No colour is assigned to any of them (R61). -/
inductive Channel where
  | ch1 | ch2 | ch3 | ch4
deriving DecidableEq, Repr

/-- PAYLOAD_CAP with its legal range, 3 to 255 (R11): an illegal capacity cannot be built. -/
structure Capacity where
  cells : Nat
  atLeast3 : 3 ≤ cells
  atMost255 : cells ≤ 255
deriving DecidableEq, Repr

/-- The parameters the block works under (R11, R31): the model carries them in its state as constants, so that a
statement about every state is a statement about every legal parameter. -/
structure Params where
  /-- PAYLOAD_CAP, the number of cells of the payload buffer. -/
  cap : Capacity
  /-- MAX_DUTY, what the sink answers to get_max_duty() (R63). -/
  maxDuty : Duty
deriving DecidableEq, Repr

namespace Config

/-- The default PAYLOAD_CAP, 8 (R11, decision D3). -/
def defaultCap : Capacity := ⟨8, by decide, by decide⟩

/-- MAX_DUTY is OPEN (R11, R63): a free value, notes/assumptions/3.md. -/
opaque maxDuty : Duty

/-- INIT_DUTY[1..4] is OPEN (R11, R32): a free value, notes/assumptions/4.md. -/
opaque initDuty : Channel → Duty

/-- The byte that buffer cell `i` holds after reset number `draw` until something is written to it: unspecified
(R41, R210), a free value, notes/assumptions/5.md. -/
opaque unspecifiedByte : (draw i : Nat) → Byte

/-- The byte that lane `i` of the port frame_payload carries, at port transaction number `transaction`, where the
frame has no payload byte for the lane: R69 does not give it, a free value, notes/assumptions/19.md. -/
opaque undrivenByte : (transaction i : Nat) → Byte

/-- The parameters of the machine `State.reset` describes. -/
def params : Params := { cap := defaultCap, maxDuty := maxDuty }

end Config

end Sys2Proof
end

