-- ==== Sys2Proof/Syntax.lean ====
section
/-! DEFINITION. The instructions: one constructor per mnemonic of spec/opcode_table.json (FEED_APP has two rows, one
for each marker value of its operand). The FEED operations are the assembler's (spec/30_encoding.md R76), the others
are the dispatcher's commands (R77). -/

namespace Sys2Proof

/-- An operation of the block. A FEED operation's operand is the input byte (R76). A command's operands are the
bytes of the completed frame, which the machine holds in its buffer (R140); the two namespace-default rows cover many
command bytes, and carry the one they were decoded from (R77). -/
inductive Instr where
  | feedApp (b : Byte)
  | feedNoise (b : Byte)
  | feedCmd (b : Byte)
  | feedLen (b : Byte)
  | feedPay (b : Byte)
  | feedDrop (b : Byte)
  | setRgb
  | setCh1
  | setCh2
  | setCh3
  | auxOn
  | auxOff
  | colorNop (cmd : Byte)
  | auxNop (cmd : Byte)
deriving DecidableEq, Repr

/-- The dispatcher's own choice among its eight rows (R77, R140): `Instr` without the assembler's operations. -/
inductive Command where
  | setRgb
  | setCh1
  | setCh2
  | setCh3
  | auxOn
  | auxOff
  | colorNop (cmd : Byte)
  | auxNop (cmd : Byte)
deriving DecidableEq, Repr

/-- A dispatcher row as an instruction. -/
def Command.instr : Command → Instr
  | .setRgb => .setRgb
  | .setCh1 => .setCh1
  | .setCh2 => .setCh2
  | .setCh3 => .setCh3
  | .auxOn => .auxOn
  | .auxOff => .auxOff
  | .colorNop c => .colorNop c
  | .auxNop c => .auxNop c

/-- The assembler's four states, which the position counter selects (R22). -/
inductive FaState where
  | sApp | sCmd | sLen | sPay
deriving DecidableEq, Repr

/-- What the assembler's decoding reads besides the byte (R76, R81): the position, the stored-byte count and the
capacity. -/
structure FeedCtx where
  pos : PosWord
  cnt : Byte
  cap : Nat
deriving DecidableEq, Repr

/-- The spec's assembler notation for byte streams (R82). -/
inductive AsmForm where
  | setRgb (r g b : Byte)
  | setCh1 (v : Byte)
  | setCh2 (v : Byte)
  | setCh3 (v : Byte)
  | auxOn
  | auxOff
  | frame (app cmd n : Byte) (payload : List Byte)
  | raw (bytes : List Byte)
deriving DecidableEq, Repr

end Sys2Proof
end

