-- ==== Sys2Proof/WellFormed.lean ====
section
/-! DEFINITION. Which instructions the encoding admits: the operand ranges of spec/30_encoding.md R76 and R77. -/

namespace Sys2Proof

/-- FEED_APP takes a marker byte and FEED_NOISE any other (R76); the namespace-default rows take the command bytes
that no exact row of their namespace has (R77). Every other operand is any byte. -/
def Instr.wf : Instr → Bool
  | .feedApp b => b == 0xA0#8 || b == 0xB0#8
  | .feedNoise b => !(b == 0xA0#8 || b == 0xB0#8)
  | .feedCmd _ => true
  | .feedLen _ => true
  | .feedPay _ => true
  | .feedDrop _ => true
  | .setRgb => true
  | .setCh1 => true
  | .setCh2 => true
  | .setCh3 => true
  | .auxOn => true
  | .auxOff => true
  | .colorNop c => decide (4 ≤ c.toNat)
  | .auxNop c => decide (c.toNat = 0) || decide (3 ≤ c.toNat)

end Sys2Proof
end

