-- ==== Sys2Proof/Decode.lean ====
section
/-! DEFINITION. Decoding and encoding (spec/30_encoding.md). A FEED operation is one byte, decoded under the
assembler's position, count and capacity (R76); a command is the 16-bit frame header with the app byte first (R77). -/

namespace Sys2Proof

/-- The two app markers, APP_COLOR and APP_AUX (R12, R72). -/
def isMarker (b : Byte) : Bool := b == 0xA0#8 || b == 0xB0#8

/-- The assembler state a position selects (R22). -/
def faState (pos : PosWord) : FaState :=
  if pos.toNat = 0 then .sApp
  else if pos.toNat = 1 then .sCmd
  else if pos.toNat = 2 then .sLen
  else .sPay

/-- The assembler's decoder, the six rows of R76 in the order of R100's pseudocode; total. -/
def decodeFeed (c : FeedCtx) (b : Byte) : Instr :=
  match faState c.pos with
  | .sApp => if isMarker b then .feedApp b else .feedNoise b
  | .sCmd => .feedCmd b
  | .sLen => .feedLen b
  | .sPay => if c.cnt.toNat < c.cap then .feedPay b else .feedDrop b

/-- The dispatcher's decoder on the 16-bit opcode of R77, app in bits 15:8 (and R140's case distinction): an exact row
wins over a namespace default. It is total, as R140's pseudocode is: an app byte that no completed frame has falls to
the last row. -/
def decodeCommand (app cmd : Byte) : Command :=
  if app ++ cmd = 0xA000#16 then .setRgb
  else if app ++ cmd = 0xA001#16 then .setCh1
  else if app ++ cmd = 0xA002#16 then .setCh2
  else if app ++ cmd = 0xA003#16 then .setCh3
  else if app ++ cmd = 0xB001#16 then .auxOn
  else if app ++ cmd = 0xB002#16 then .auxOff
  else if app = 0xA0#8 then .colorNop cmd
  else .auxNop cmd

/-- Why bytes are no instruction. -/
inductive DecodeError where
  /-- No bytes at all. -/
  | empty
  /-- A header whose first byte is no app marker spells no frame (R79). -/
  | noMarker (app : Byte)
  /-- Longer than a frame header: no row of the table has such a format. -/
  | tooLong
deriving DecidableEq, Repr

/-- The decoder of both formats of the opcode table: one byte is a FEED operation (R76), two bytes are a frame
header, app first (R70, R77). Total; it rejects by name. -/
def decode (c : FeedCtx) : List Byte → Except DecodeError Instr
  | [] => .error .empty
  | [b] => .ok (decodeFeed c b)
  | [app, cmd] => if isMarker app then .ok (decodeCommand app cmd).instr else .error (.noMarker app)
  | _ => .error .tooLong

/-- The bytes of an instruction: the input byte of a FEED operation, the header of a command (R76, R77). -/
def encode : Instr → List Byte
  | .feedApp b => [b]
  | .feedNoise b => [b]
  | .feedCmd b => [b]
  | .feedLen b => [b]
  | .feedPay b => [b]
  | .feedDrop b => [b]
  | .setRgb => [0xA0#8, 0x00#8]
  | .setCh1 => [0xA0#8, 0x01#8]
  | .setCh2 => [0xA0#8, 0x02#8]
  | .setCh3 => [0xA0#8, 0x03#8]
  | .auxOn => [0xB0#8, 0x01#8]
  | .auxOff => [0xB0#8, 0x02#8]
  | .colorNop c => [0xA0#8, c]
  | .auxNop c => [0xB0#8, c]

/-- The state condition of an instruction's row (R76); a command's row has none. -/
def selectedIn (c : FeedCtx) : Instr → Bool
  | .feedApp _ => decide (c.pos.toNat = 0)
  | .feedNoise _ => decide (c.pos.toNat = 0)
  | .feedCmd _ => decide (c.pos.toNat = 1)
  | .feedLen _ => decide (c.pos.toNat = 2)
  | .feedPay _ => decide (3 ≤ c.pos.toNat) && decide (c.cnt.toNat < c.cap)
  | .feedDrop _ => decide (3 ≤ c.pos.toNat) && !decide (c.cnt.toNat < c.cap)
  | .setRgb => true
  | .setCh1 => true
  | .setCh2 => true
  | .setCh3 => true
  | .auxOn => true
  | .auxOff => true
  | .colorNop _ => true
  | .auxNop _ => true

/-- The bytes of a frame on the wire (R70). -/
def frameBytes (app cmd len : Byte) (payload : List Byte) : List Byte := app :: cmd :: len :: payload

/-- The bytes an assembler form stands for (R82). -/
def AsmForm.bytes : AsmForm → List Byte
  | .setRgb r g b => frameBytes 0xA0#8 0x00#8 0x03#8 [r, g, b]
  | .setCh1 v => frameBytes 0xA0#8 0x01#8 0x01#8 [v]
  | .setCh2 v => frameBytes 0xA0#8 0x02#8 0x01#8 [v]
  | .setCh3 v => frameBytes 0xA0#8 0x03#8 0x01#8 [v]
  | .auxOn => frameBytes 0xB0#8 0x01#8 0x00#8 []
  | .auxOff => frameBytes 0xB0#8 0x02#8 0x00#8 []
  | .frame app cmd n payload => frameBytes app cmd n payload
  | .raw bytes => bytes

/-- The assembler at Idle with an empty buffer of the default capacity, as after reset (R211). -/
def idleCtx : FeedCtx := { pos := 0#9, cnt := 0#8, cap := Config.defaultCap.cells }

/-- The bytes of an opcode-table word. An 8-bit row is the input byte. A 16-bit row is the word with the app byte in
bits 15:8 and the command byte in bits 7:0 (R77), and the app byte is the first on the wire (R70). -/
def tableBytes (nbits w : Nat) : Option (List Byte) :=
  if nbits = 8 then some [BitVec.ofNat 8 w]
  else if nbits = 16 then some [BitVec.ofNat 8 (w / 256), BitVec.ofNat 8 w]
  else none

/-- The instruction the decoder reads from an opcode-table word. A byte alone does not name its row (R76), so a
BYTE-format word is read as the first byte after reset, at Idle (notes/assumptions/11.md). -/
def decodeTableWord (nbits w : Nat) : Option Instr :=
  match tableBytes nbits w with
  | none => none
  | some bytes =>
    match decode idleCtx bytes with
    | .ok i => some i
    | .error _ => none

end Sys2Proof
end

