-- ==== Sys2Proof/Machine/State.lean ====
section
/-! DEFINITION. The state, as plain data (spec/10_state.md R21, R32; spec/00_scope.md R14), the reasons a step can
stop, and the state after reset (spec/70_reset_and_hazards.md R210, R211). -/

namespace Sys2Proof.Machine

/-- The payload buffer's written cells, as (index, byte) pairs with strictly rising indices (R50). An index that is
not listed has not been written since the last reset. -/
abbrev Memory := List Host.Cell

/-- What the byte source and the reset input present to the block, one at a time (R10, R57, R188). -/
inductive InputEvent where
  /-- read_byte() yields a byte. -/
  | byte (b : Byte)
  /-- read_byte() reports a failure (R59, R186). -/
  | readError
  /-- A reset, between two steps (R188, R210). -/
  | reset
deriving DecidableEq, Repr

/-- A completed frame, as Emit outputs it (R120). -/
structure Frame where
  app : Byte
  cmd : Byte
  len : Byte
  cnt : Byte
  payload : List Byte
deriving DecidableEq, Repr

/-- One set_duty(ch, value) on the sink (R60). -/
structure SinkWrite where
  ch : Channel
  value : Duty
deriving DecidableEq, Repr

/-- The silent conditions, with the information each records (R180). -/
inductive Condition where
  | noise (b : Byte)
  | drop (b : Byte)
  | underrun (app cmd len cnt : Byte)
  | unknown (app cmd : Byte)
  | srcError
deriving DecidableEq, Repr

/-- What one transition makes observable besides the state after it (R14). -/
structure StepOut where
  frame : Option Frame := none
  writes : List SinkWrite := []
  conds : List Condition := []
deriving DecidableEq, Repr

/-- The sink's four duty cells (R32). -/
structure DutyCells where
  ch1 : Duty
  ch2 : Duty
  ch3 : Duty
  ch4 : Duty
deriving DecidableEq, Repr

/-- The machine. `pos` to `buf` are the Assembler State (R21). `duty` is the sink's (R32). `par`, `input`, `out` and
`draws` are the model's own: the parameters (R11, R31), the events still to come from the host (R57, R197), the last
transition's observation (R14), and the number of resets so far, which selects the free bytes of R41. -/
structure State where
  pos : PosWord
  app : Byte
  cmd : Byte
  len : Byte
  cnt : Byte
  buf : Memory
  par : Params
  duty : DutyCells
  input : List InputEvent
  out : StepOut
  draws : Nat
deriving DecidableEq, Repr

/-- The block itself has no fault (R180, R156). -/
inductive Fault where
  /-- Raised by a buffer access at an index that is not below PAYLOAD_CAP, which is no cell of the block (R16, R50,
  R68). Safe: the model stops. No step reaches it, since FEED_PAY is selected only while a cell is free (R52, R76). -/
  | noSuchCell (index : Nat)
deriving DecidableEq, Repr

/-- Why an instruction is refused. -/
inductive Refusal where
  /-- An instruction without a meaning in this model: there is none. Safe: the model stops. -/
  | notModelled (mnemonic : String)
deriving DecidableEq, Repr

/-- The three outcomes over this machine. -/
abbrev Res := Host.Outcome State Fault Refusal

/-- The machine at power-on, for any parameters and any duties held by the sink (R40, R41, R210, R211). -/
def State.powerOn (p : Params) (d : DutyCells) : State where
  pos := 0#9
  app := 0x00#8
  cmd := 0x00#8
  len := 0x00#8
  cnt := 0#8
  buf := []
  par := p
  duty := d
  input := []
  out := {}
  draws := 0

/-- The machine right after reset (R211), waiting in Idle for its first byte. -/
def State.reset : State :=
  State.powerOn Config.params
    { ch1 := Config.initDuty .ch1, ch2 := Config.initDuty .ch2, ch3 := Config.initDuty .ch3,
      ch4 := Config.initDuty .ch4 }

end Sys2Proof.Machine
end

