-- ==== Sys2Proof/Machine/Ops.lean ====
section
/-! DEFINITION. The named operations over the buffer, the sink and the observation (spec/00_scope.md R16,
spec/20_memory.md), raising a silent condition, which is all this block has in place of an exception
(spec/60_exceptions.md R180, R190), and the reset (spec/70_reset_and_hazards.md R210). -/

namespace Sys2Proof.Machine

/-- Sequencing: a fault or a refusal ends the operation. -/
def andThen (r : Res) (k : State → Res) : Res :=
  match r with
  | .next s => k s
  | .fault f => .fault f
  | .refused q => .refused q

/-- The byte listed at an index, or none where nothing has been written since the last reset. -/
def Memory.read : Memory → Nat → Option Byte
  | [], _ => none
  | c :: m, i => if c.1 = i then some c.2 else Memory.read m i

/-- Writing one cell, keeping the indices strictly rising. -/
def Memory.write : Memory → Nat → Byte → Memory
  | [], i, b => [(i, b)]
  | c :: m, i, b =>
    if i < c.1 then (i, b) :: c :: m
    else if i = c.1 then (i, b) :: m
    else c :: Memory.write m i b

/-- The canonical form: indices strictly rising. -/
def Memory.wf : Memory → Bool
  | [] => true
  | [_] => true
  | c :: d :: m => decide (c.1 < d.1) && Memory.wf (d :: m)

/-- `PAYLOAD_CAP` (R11). -/
def State.capacity (s : State) : Nat := s.par.cap.cells

/-- What cell `i` holds: the byte last written, or the free byte of R41 where nothing was written since reset. -/
def State.cell (s : State) (i : Nat) : Byte :=
  match Memory.read s.buf i with
  | some b => b
  | none => Config.unspecifiedByte s.draws i

/-- MemRead(i, 1) (R16): an index that is no cell faults. -/
def bufRead (i : Nat) (s : State) (k : Byte → Res) : Res :=
  if i < s.capacity then k (s.cell i) else .fault (.noSuchCell i)

/-- MemWrite(i, 1, b) (R16): an index that is no cell faults. -/
def bufWrite (i : Nat) (b : Byte) (s : State) : Res :=
  if i < s.capacity then .next { s with buf := Memory.write s.buf i b } else .fault (.noSuchCell i)

/-- `raise C(info)` (R16, R180): it appends to the step's condition list, changes no register and transfers no
control. -/
def raise (c : Condition) (s : State) : State :=
  { s with out := { s.out with conds := s.out.conds ++ [c] } }

/-- The duty a channel holds (R32). -/
def DutyCells.get (d : DutyCells) : Channel → Duty
  | .ch1 => d.ch1
  | .ch2 => d.ch2
  | .ch3 => d.ch3
  | .ch4 => d.ch4

/-- A channel's duty replaced, the other three kept (R62). -/
def DutyCells.set (d : DutyCells) (ch : Channel) (v : Duty) : DutyCells :=
  match ch with
  | .ch1 => { d with ch1 := v }
  | .ch2 => { d with ch2 := v }
  | .ch3 => { d with ch3 := v }
  | .ch4 => { d with ch4 := v }

/-- SinkWrite(ch, v) (R16, R62, R66): the sink's cell takes the value, and the write joins the step's ordered list. -/
def sinkWrite (ch : Channel) (v : Duty) (s : State) : State :=
  { s with
    duty := s.duty.set ch v
    out := { s.out with writes := s.out.writes ++ [{ ch := ch, value := v }] } }

/-- MaxDuty() (R16, R63). -/
def maxDuty (s : State) : Duty := s.par.maxDuty

/-- The stored payload, buf[0..cnt-1], in arrival order (R120). -/
def storedPayload (s : State) : List Byte := (List.range s.cnt.toNat).map s.cell

/-- The completed frame the header registers and the buffer hold (R120). -/
def currentFrame (s : State) : Frame :=
  { app := s.app, cmd := s.cmd, len := s.len, cnt := s.cnt, payload := storedPayload s }

/-- Emit(f) (R120). -/
def emitFrame (s : State) : State := { s with out := { s.out with frame := some (currentFrame s) } }

/-- Clear() (R54, R152): the count alone; no cell is written. -/
def clear (s : State) : State := { s with cnt := 0#8 }

/-- The end of a completing step (R100, R110): the payload empty and the position back at Idle. -/
def toIdle (s : State) : State := { s with cnt := 0#8, pos := 0#9 }

/-- Reset (R210) on the block: the buffer's bytes become unspecified again (a new draw), no frame, write or
condition; the sink's duties are not touched (R211). -/
def resetBlock (s : State) : State :=
  { s with pos := 0#9, cnt := 0#8, app := 0x00#8, cmd := 0x00#8, len := 0x00#8, buf := [],
           draws := s.draws + 1, out := {} }

/-- The source-error stutter (R59, R186): SRC_ERROR, and nothing else. -/
def sourceStutter (s : State) : State := { s with out := { conds := [.srcError] } }

end Sys2Proof.Machine
end

