-- ==== Sys2Proof/Machine/Flags.lean ====
section
/-! DEFINITION. The block holds no flags (spec/10_state.md R28). What a step computes in their place: the completion
test (spec/40_frame_assembler.md R110, R112), and the codes of the silent conditions (spec/60_exceptions.md R180). -/

namespace Sys2Proof.Machine

/-- The completion test, `pos == len + 3` in 9 bits, where `len + 3` is at most 258 and does not wrap (R110, R112). -/
def frameComplete (s : State) : Bool := s.pos == s.len.setWidth 9 + 3#9

/-- A condition's code in a model's event log (R180). -/
def conditionCode : Condition → Nat
  | .noise _ => 1
  | .drop _ => 2
  | .underrun _ _ _ _ => 3
  | .unknown _ _ => 4
  | .srcError => 5

end Sys2Proof.Machine
end

