-- ==== Sys2Proof/Machine/Operands.lean ====
section
/-! DEFINITION. The operand forms: a payload byte of the completed frame, its scaling to a duty, the halved maximum,
and the channel numbers (spec/41_command_dispatcher.md R141, R148; spec/20_memory.md R53, R61). -/

namespace Sys2Proof.Machine

/-- Scale(v) under the maximum duty `m` (R141): divide by 255 first, then multiply, in 16 bits unsigned. -/
def scale (m : Duty) (v : Byte) : Duty := (m / 255#16) * v.setWidth 16

/-- Half of the maximum duty, truncated (R148). -/
def halfDuty (m : Duty) : Duty := m / 2#16

/-- SinkWrite(ch, Scale(f.payload[i])) (R144 to R147). -/
def writeScaled (ch : Channel) (i : Nat) (s : State) : Res :=
  bufRead i s fun v => .next (sinkWrite ch (scale (maxDuty s) v) s)

/-- The channel's number, 1 to 4 (R61). -/
def channelNumber : Channel → Nat
  | .ch1 => 1
  | .ch2 => 2
  | .ch3 => 3
  | .ch4 => 4

/-- The channel's 2-bit code on a port, `ch - 1` (R61). -/
def channelCode (ch : Channel) : BitVec 2 := BitVec.ofNat 2 (channelNumber ch - 1)

end Sys2Proof.Machine
end

