-- ==== Sys2Proof/Machine/Command.lean ====
section
/-! DEFINITION. The command dispatcher (spec/41_command_dispatcher.md): the meaning of each command row, at a state
whose header registers and buffer hold the completed frame, and the dispatch of a frame. -/

namespace Sys2Proof.Machine

/-- The required payload column of R77: how many stored bytes a command needs (R78, R140). -/
def requiredPayload : Command → Nat
  | .setRgb => 3
  | .setCh1 => 1
  | .setCh2 => 1
  | .setCh3 => 1
  | .auxOn => 0
  | .auxOff => 0
  | .colorNop _ => 0
  | .auxNop _ => 0

/-- A documented command (R140): with fewer stored bytes than it requires it writes nothing and raises UNDERRUN
(R142); otherwise it performs its writes. Either way it ends by clearing the payload (R152). -/
def documented (req : Nat) (op : State → Res) (s : State) : Res :=
  if s.cnt.toNat < req then .next (clear (raise (.underrun s.app s.cmd s.len s.cnt) s))
  else andThen (op s) fun t => .next (clear t)

/-- A frame outside the documented rows (R80, R140): UNKNOWN, no write, and the payload cleared. -/
def unlisted (cmd : Byte) (s : State) : Res := .next (clear (raise (.unknown s.app cmd) s))

/-- SET_RGB (R144): channel1, channel2, channel3 in this order (R66). -/
def execSetRgb (s : State) : Res :=
  documented (requiredPayload .setRgb)
    (fun s0 => andThen (writeScaled .ch1 0 s0) fun s1 => andThen (writeScaled .ch2 1 s1) (writeScaled .ch3 2)) s

/-- SET_CH1 (R145). -/
def execSetCh1 (s : State) : Res := documented (requiredPayload .setCh1) (writeScaled .ch1 0) s

/-- SET_CH2 (R146). -/
def execSetCh2 (s : State) : Res := documented (requiredPayload .setCh2) (writeScaled .ch2 0) s

/-- SET_CH3 (R147). -/
def execSetCh3 (s : State) : Res := documented (requiredPayload .setCh3) (writeScaled .ch3 0) s

/-- AUX_ON (R148). -/
def execAuxOn (s : State) : Res :=
  documented (requiredPayload .auxOn) (fun s0 => .next (sinkWrite .ch4 (halfDuty (maxDuty s0)) s0)) s

/-- AUX_OFF (R149). -/
def execAuxOff (s : State) : Res :=
  documented (requiredPayload .auxOff) (fun s0 => .next (sinkWrite .ch4 0x0000#16 s0)) s

/-- COLOR_NOP (R150). -/
def execColorNop (cmd : Byte) (s : State) : Res := unlisted cmd s

/-- AUX_NOP (R151). -/
def execAuxNop (cmd : Byte) (s : State) : Res := unlisted cmd s

/-- The selected command performed (R140). -/
def perform : Command → State → Res
  | .setRgb, s => execSetRgb s
  | .setCh1, s => execSetCh1 s
  | .setCh2, s => execSetCh2 s
  | .setCh3, s => execSetCh3 s
  | .auxOn, s => execAuxOn s
  | .auxOff, s => execAuxOff s
  | .colorNop c, s => execColorNop c s
  | .auxNop c, s => execAuxNop c s

/-- Dispatch(f) of the frame in the header registers and the buffer (R140). -/
def dispatch (s : State) : Res := perform (decodeCommand s.app s.cmd) s

end Sys2Proof.Machine
end

