-- ==== Sys2Proof/Machine/FrameAssembler.lean ====
section
/-! DEFINITION. The frame assembler (spec/40_frame_assembler.md): the completion of a frame and the meaning of each
FEED operation. -/

namespace Sys2Proof.Machine

/-- The completion test after FEED_LEN, FEED_PAY and FEED_DROP (R110): emit, dispatch, clear, back to Idle, in this
order; or nothing more. -/
def completeFrame (s : State) : Res :=
  if frameComplete s then andThen (dispatch (emitFrame s)) fun t => .next (toIdle t) else .next s

/-- FEED_APP (R101). -/
def execFeedApp (b : Byte) (s : State) : Res := .next { s with app := b, pos := 1#9 }

/-- FEED_NOISE (R102). -/
def execFeedNoise (b : Byte) (s : State) : Res := .next (raise (.noise b) s)

/-- FEED_CMD (R103): no completion test (R111). -/
def execFeedCmd (b : Byte) (s : State) : Res := .next { s with cmd := b, pos := 2#9 }

/-- FEED_LEN (R104, R105). -/
def execFeedLen (b : Byte) (s : State) : Res := completeFrame { s with len := b, pos := 3#9 }

/-- FEED_PAY (R106): the byte goes to `buf[cnt]`. -/
def execFeedPay (b : Byte) (s : State) : Res :=
  andThen (bufWrite s.cnt.toNat b s) fun t => completeFrame { t with cnt := t.cnt + 1#8, pos := t.pos + 1#9 }

/-- FEED_DROP (R107): the byte is lost and the position still advances. -/
def execFeedDrop (b : Byte) (s : State) : Res :=
  completeFrame { raise (.drop b) s with pos := s.pos + 1#9 }

end Sys2Proof.Machine
end

