-- ==== Sys2Proof/Machine/Dispatch.lean ====
section
/-! DEFINITION. One arm per constructor of Instr, each one call of its meaning. -/

namespace Sys2Proof.Machine

def exec (i : Instr) (s : State) : Host.Outcome State Fault Refusal :=
  match i with
  -- the frame assembler's operations (R76)
  | .feedApp b => Sys2Proof.Machine.execFeedApp b s
  | .feedNoise b => Sys2Proof.Machine.execFeedNoise b s
  | .feedCmd b => Sys2Proof.Machine.execFeedCmd b s
  | .feedLen b => Sys2Proof.Machine.execFeedLen b s
  | .feedPay b => Sys2Proof.Machine.execFeedPay b s
  | .feedDrop b => Sys2Proof.Machine.execFeedDrop b s
  -- the command dispatcher's operations (R77)
  | .setRgb => Sys2Proof.Machine.execSetRgb s
  | .setCh1 => Sys2Proof.Machine.execSetCh1 s
  | .setCh2 => Sys2Proof.Machine.execSetCh2 s
  | .setCh3 => Sys2Proof.Machine.execSetCh3 s
  | .auxOn => Sys2Proof.Machine.execAuxOn s
  | .auxOff => Sys2Proof.Machine.execAuxOff s
  | .colorNop cmd => Sys2Proof.Machine.execColorNop cmd s
  | .auxNop cmd => Sys2Proof.Machine.execAuxNop cmd s

end Sys2Proof.Machine
end

