-- ==== Sys2Proof/Machine/Fetch.lean ====
section
/-! DEFINITION. How the next instruction comes to the block: the byte source's next event (spec/20_memory.md R57 to
R59), the decoding of a byte under the state (spec/30_encoding.md R76), and where a table word is placed so that the
next step runs it. -/

namespace Sys2Proof.Machine

/-- What the assembler's decoder reads of the state (R81). -/
def State.feedCtx (s : State) : FeedCtx := { pos := s.pos, cnt := s.cnt, cap := s.capacity }

/-- The operation an input byte is in this state (R76). -/
def feedInstr (s : State) (b : Byte) : Instr := decodeFeed s.feedCtx b

/-- An event taken from the source, and the last transition's observation dropped: a step's observation is its own
(R14, R58). -/
def takeEvent (s : State) (rest : List InputEvent) : State := { s with input := rest, out := {} }

/-- A header word placed so that the next byte completes its frame: the app and command bytes received, the payload
empty, and the LEN byte, 0, next from the source. -/
def placeHeader (app cmd : Byte) (s : State) : State :=
  { s with app := app, cmd := cmd, cnt := 0#8, pos := 2#9, input := .byte 0x00#8 :: s.input }

/-- Bytes placed at the head of the source with the block at Idle. -/
def placeBytes (bytes : List Byte) (s : State) : State :=
  { s with pos := 0#9, input := bytes.map .byte ++ s.input }

/-- A table word placed where the next step fetches. A BYTE word is the next byte at Idle; a header with an app
marker is placed as a frame whose LEN byte, 0, comes next; any other header can only arrive at Idle, where its first
byte is noise (R79). -/
def placeWord (nbits w : Nat) (s : State) : State :=
  match tableBytes nbits w with
  | some [app, cmd] => if isMarker app then placeHeader app cmd s else placeBytes [app, cmd, 0x00#8] s
  | some bytes => placeBytes bytes s
  | none => s

end Sys2Proof.Machine
end

