-- ==== Sys2Proof/Machine/Step.lean ====
section
/-! DEFINITION. One transition of the block (spec/00_scope.md R9, R10): an accepted byte with all it causes, a reset,
a source-error stutter; and, with no event there, the wait (spec/20_memory.md R57). -/

namespace Sys2Proof.Machine

/-- The step. With nothing from the source the block waits and its state does not change (R57, R198). -/
def step (s : State) : Host.Outcome State Fault Refusal :=
  match s.input with
  | [] => .next s
  | .byte b :: rest => exec (feedInstr s b) (takeEvent s rest)
  | .readError :: rest => .next (sourceStutter (takeEvent s rest))
  | .reset :: rest => .next (resetBlock (takeEvent s rest))

/-- `s` with an opcode-table word placed so that the very next step runs it (notes/assumptions/11.md). -/
def State.withFetchWord (s : State) (nbits w : Nat) : State := placeWord nbits w s

end Sys2Proof.Machine
end

