-- ==== Sys2Proof/Machine/Ports.lean ====
section
/-! DEFINITION. The port-level realisation of spec/20_memory.md R69, at the transaction level: what the input ports
ask of one transition, and what the output ports carry after it. No cycle is modelled (spec/70_reset_and_hazards.md
R230). -/

namespace Sys2Proof.Machine

/-- The input ports at one transaction (R69). -/
structure PortIn where
  rst : Bool
  inValid : Bool
  inErr : Bool
  inByte : Byte
  maxDuty : Duty
deriving DecidableEq, Repr

/-- The frame port's fields frame_app, frame_cmd, frame_len, frame_cnt and frame_payload, the last of 8 bits for each
of the buffer's `cap` cells (R69). -/
structure FramePort (cap : Nat) where
  app : Byte
  cmd : Byte
  len : Byte
  cnt : Byte
  payload : BitVec (8 * cap)
deriving DecidableEq, Repr

/-- The output ports after one transaction (R69). `frame` is present exactly while frame_valid is high, and
`dutyTransfers` are the transfers on the sink write port, in order, each (duty_ch, duty_val). -/
structure PortOut (cap : Nat) where
  inReady : Bool
  frame : Option (FramePort cap)
  dutyTransfers : List (BitVec 2 × Duty)
deriving DecidableEq, Repr

/-- What the input ports present while in_ready is high: a reset wins over everything (R188); in_err reports a read
failure; a byte is accepted when in_valid is high and in_err low (R69); otherwise the block waits. -/
def portEvent (p : PortIn) : Option InputEvent :=
  if p.rst then some .reset
  else if p.inErr then some .readError
  else if p.inValid then some (.byte p.inByte)
  else none

/-- One transaction at the ports. -/
def portStep (p : PortIn) (s : State) : Res :=
  step { s with par := { s.par with maxDuty := p.maxDuty }, input := (portEvent p).toList, out := {} }

/-- What lane `i` of frame_payload carries: payload byte `i` (notes/assumptions/18.md), or, past the stored bytes, a
free byte. It is never the buffer's stale byte (R33, R53). -/
def payloadLane (transaction : Nat) (f : Frame) (i : Nat) : Byte :=
  match f.payload[i]? with
  | some b => b
  | none => Config.undrivenByte transaction i

/-- `n` byte lanes as one number, lane 0 least significant. -/
def packLanes (lane : Nat → Byte) : Nat → Nat
  | 0 => 0
  | n + 1 => packLanes lane n + (lane n).toNat * 2 ^ (8 * n)

/-- A completed frame on the frame port (R69, R120). -/
def framePort (cap transaction : Nat) (f : Frame) : FramePort cap where
  app := f.app
  cmd := f.cmd
  len := f.len
  cnt := f.cnt
  payload := BitVec.ofNat (8 * cap) (packLanes (payloadLane transaction f) cap)

/-- The output ports between two transactions: every write of the last one, which is number `transaction`, has been
delivered, so in_ready is high (R69). -/
def portOut (transaction : Nat) (s : State) : PortOut s.capacity where
  inReady := true
  frame := s.out.frame.map (framePort s.capacity transaction)
  dutyTransfers := s.out.writes.map fun w => (channelCode w.ch, w.value)

end Sys2Proof.Machine
end

