-- ==== Sys2Proof/Safety.lean ====
section
/-! DEFINITION. What the spec calls a legal state between steps (spec/10_state.md R24), the buffer's canonical form,
and the terms in which statements speak of safe runs and of observations. -/

namespace Sys2Proof.Machine

/-- I1 of R24. -/
abbrev State.I1 (s : State) : Prop :=
  s.pos.toNat ≤ 2 ∨ (3 ≤ s.pos.toNat ∧ s.pos.toNat ≤ s.len.toNat + 2)

/-- I2 of R24. -/
abbrev State.I2 (s : State) : Prop := s.pos.toNat ≤ 2 → s.cnt.toNat = 0

/-- I3 of R24. -/
abbrev State.I3 (s : State) : Prop := 3 ≤ s.pos.toNat → s.cnt.toNat = min (s.pos.toNat - 3) s.capacity

/-- I4 of R24. -/
abbrev State.I4 (s : State) : Prop := 1 ≤ s.pos.toNat → s.app = 0xA0#8 ∨ s.app = 0xB0#8

/-- I5 of R24. -/
abbrev State.I5 (s : State) : Prop := s.cnt.toNat ≤ s.capacity

/-- The invariant between steps (R24). -/
abbrev State.Inv (s : State) : Prop := s.I1 ∧ s.I2 ∧ s.I3 ∧ s.I4 ∧ s.I5

/-- The buffer's form: strictly rising indices, all of them cells of the block (R50), and every cell below `cnt`
written since the last reset, so that no read rule R53 allows reaches a free byte (R33). -/
abbrev State.BufOk (s : State) : Prop :=
  Memory.wf s.buf = true ∧ (∀ c ∈ s.buf, c.1 < s.capacity) ∧
    ∀ i, i < s.cnt.toNat → (Memory.read s.buf i).isSome = true

/-- `k` steps of the machine, as the host's interface runs them. -/
def runSteps (k : Nat) (s : State) : Res := Host.Core.run Sys2Proof.core k s

/-- Every run from `s` goes on for ever, and through legal states only (R25, R198). -/
def State.Safe (s : State) : Prop :=
  ∀ k, ∃ t : State, runSteps k s = .next t ∧ t.Inv

/-- The sink's cells after a list of writes, in order (R62, R66). -/
def applyWrites (d : DutyCells) (ws : List SinkWrite) : DutyCells :=
  ws.foldl (fun d w => d.set w.ch w.value) d

/-- The sink writes a completed frame asks for, read off the command map (R77) and the scaling and halving rules
(R141, R148) on plain numbers: `m` is MAX_DUTY. A frame shorter than its command requires asks for none (R142). -/
def tableWrites (m : Nat) (f : Frame) : List (Channel × Nat) :=
  match f.app.toNat, f.cmd.toNat, f.payload with
  | 0xA0, 0x00, r :: g :: b :: _ =>
    [(.ch1, m / 255 * r.toNat), (.ch2, m / 255 * g.toNat), (.ch3, m / 255 * b.toNat)]
  | 0xA0, 0x01, v :: _ => [(.ch1, m / 255 * v.toNat)]
  | 0xA0, 0x02, v :: _ => [(.ch2, m / 255 * v.toNat)]
  | 0xA0, 0x03, v :: _ => [(.ch3, m / 255 * v.toNat)]
  | 0xB0, 0x01, _ => [(.ch4, m / 2)]
  | 0xB0, 0x02, _ => [(.ch4, 0)]
  | _, _, _ => []

/-- Writes as plain numbers, to compare with `tableWrites`. -/
def writeNumbers (ws : List SinkWrite) : List (Channel × Nat) := ws.map fun w => (w.ch, w.value.toNat)

/-- Two states alike in all but the hidden bytes: the cells at or above `cnt`, and the reset's number that selects
unwritten cells' bytes (R33, R41). -/
def State.SameButHidden (s s' : State) : Prop :=
  s' = { s with buf := s'.buf, draws := s'.draws } ∧ ∀ i, i < s.cnt.toNat → s'.cell i = s.cell i

/-- Two states alike in all but the header registers that R26 calls stale at their position. -/
def State.SameButStale (s s' : State) : Prop :=
  s' = { s with app := s'.app, cmd := s'.cmd, len := s'.len } ∧
    (1 ≤ s.pos.toNat → s'.app = s.app) ∧ (2 ≤ s.pos.toNat → s'.cmd = s.cmd) ∧ (3 ≤ s.pos.toNat → s'.len = s.len)

end Sys2Proof.Machine
end

