-- ==== Sys2Proof/Certificates/Slice0/Obligations.lean ====
section
/-! DEFINITION. The statements for the provers. A statement whose docstring cites a rule by "stated" formalises that
rule; where the spec marks a rule as its own inference or decision, or the model fixed a point itself, the docstring
says so and names the sentence or the assumption log's entry. -/

open Sys2Proof Sys2Proof.Machine

/-! ### The frame assembler's operations -/

/-- Stated, R101: FEED_APP stores the byte as `app`, moves to position 1 and changes nothing else; it is selected at
position 0 by a marker, where a legal state has `cnt` 0. -/
def Obligations.FeedAppStoresTheAppByte : Prop :=
  ∀ (s : State) (b : Byte),
    exec (.feedApp b) s = .next { s with app := b, pos := 1#9 } ∧
    (s.pos = 0#9 → b = 0xA0#8 ∨ b = 0xB0#8 → feedInstr s b = .feedApp b) ∧
    (s.Inv → s.pos = 0#9 → s.cnt = 0#8)

/-- Stated, R181: a noise byte is discarded; the state is unchanged but for the recorded condition. -/
def Obligations.FeedNoiseLeavesTheStateUnchanged : Prop :=
  ∀ (s : State) (b : Byte),
    exec (.feedNoise b) s = .next { s with out := { s.out with conds := s.out.conds ++ [.noise b] } } ∧
    (s.pos = 0#9 → b ≠ 0xA0#8 → b ≠ 0xB0#8 → feedInstr s b = .feedNoise b)

/-- Stated, R102: at Idle every byte of a run of noise bytes is FEED_NOISE, and after each of them the state is as
before, no frame is out, and NOISE with the byte is the only condition. -/
def Obligations.NoiseRunsLeaveTheBlockIdle : Prop :=
  ∀ (s : State) (bytes : List Byte) (rest : List InputEvent), s.pos = 0#9 →
    (∀ b ∈ bytes, b ≠ 0xA0#8 ∧ b ≠ 0xB0#8) → s.input = bytes.map .byte ++ rest →
    ∀ (k : Nat) (hk : k < bytes.length),
      feedInstr s bytes[k] = .feedNoise bytes[k] ∧
      runSteps (k + 1) s =
        .next { s with input := (bytes.drop (k + 1)).map .byte ++ rest, out := { conds := [.noise bytes[k]] } }

/-- Stated, R103: FEED_CMD stores any byte, a marker value included, as `cmd`, moves to position 2 and makes no
completion test. -/
def Obligations.FeedCmdStoresTheCommandByte : Prop :=
  ∀ (s : State) (b : Byte),
    exec (.feedCmd b) s = .next { s with cmd := b, pos := 2#9 } ∧
    (s.pos = 1#9 → feedInstr s b = .feedCmd b)

/-- Stated, R104: FEED_LEN stores the byte as `len`; a nonzero length ends the step at position 3, and length 0
completes the frame in this step: emitted, its command run, the payload cleared, back to position 0. A legal state has
`cnt` 0 there. -/
def Obligations.FeedLenStoresTheLengthAndTests : Prop :=
  ∀ (s : State) (b : Byte),
    (s.pos = 2#9 → feedInstr s b = .feedLen b) ∧
    (s.Inv → s.pos = 2#9 → s.cnt = 0#8) ∧
    (b ≠ 0x00#8 → exec (.feedLen b) s = .next { s with len := b, pos := 3#9 }) ∧
    (b = 0x00#8 → ∃ t : State,
      exec (decodeCommand s.app s.cmd).instr
        { s with
          len := b
          pos := 3#9
          out :=
            { s.out with
              frame := some { app := s.app, cmd := s.cmd, len := b, cnt := s.cnt, payload := storedPayload s } } } =
          .next t ∧
      exec (.feedLen b) s = .next { t with cnt := 0#8, pos := 0#9 })

/-- Derived (R106 rests on the spec's decisions D6 and D21): FEED_PAY, with a cell free, stores the byte at `cnt`, and
only there, and advances both counters; it completes the frame exactly at position `len + 3`. -/
def Obligations.FeedPayAppendsTheByte : Prop :=
  ∀ (s : State) (b : Byte), s.cnt.toNat < s.capacity →
    (3 ≤ s.pos.toNat → feedInstr s b = .feedPay b) ∧
    ∃ u : State,
      u.cell s.cnt.toNat = b ∧ (∀ j, j ≠ s.cnt.toNat → u.cell j = s.cell j) ∧
      { u with buf := s.buf } = { s with cnt := s.cnt + 1#8, pos := s.pos + 1#9 } ∧
      (u.pos.toNat ≠ u.len.toNat + 3 → exec (.feedPay b) s = .next u) ∧
      (u.pos.toNat = u.len.toNat + 3 → ∃ t : State,
        exec (decodeCommand u.app u.cmd).instr
          { u with
            out :=
              { u.out with
                frame := some
                  { app := u.app, cmd := u.cmd, len := u.len, cnt := u.cnt, payload := storedPayload u } } } =
            .next t ∧
        exec (.feedPay b) s = .next { t with cnt := 0#8, pos := 0#9 })

/-- Derived, the model's choice (notes/assumptions/10.md): FEED_PAY taken where no cell is free, which no step does,
stops at the cell that does not exist (R16: the index must be below PAYLOAD_CAP). -/
def Obligations.FeedPayWithoutAFreeCellStops : Prop :=
  ∀ (s : State) (b : Byte), s.capacity ≤ s.cnt.toNat →
    exec (.feedPay b) s = .fault (.noSuchCell s.cnt.toNat) ∧ feedInstr s b ≠ .feedPay b

/-- Stated, R107: FEED_DROP raises DROP and advances the position; no cell and not `cnt` is written; it completes the
frame exactly at position `len + 3`. -/
def Obligations.FeedDropLosesTheByte : Prop :=
  ∀ (s : State) (b : Byte),
    let u : State := { s with pos := s.pos + 1#9, out := { s.out with conds := s.out.conds ++ [.drop b] } }
    (3 ≤ s.pos.toNat → s.cnt.toNat = s.capacity → feedInstr s b = .feedDrop b) ∧
    (u.pos.toNat ≠ u.len.toNat + 3 → exec (.feedDrop b) s = .next u) ∧
    (u.pos.toNat = u.len.toNat + 3 → ∃ t : State,
      exec (decodeCommand s.app s.cmd).instr
        { u with
          out :=
            { u.out with
              frame := some
                { app := s.app, cmd := s.cmd, len := s.len, cnt := s.cnt, payload := storedPayload s } } } =
          .next t ∧
      exec (.feedDrop b) s = .next { t with cnt := 0#8, pos := 0#9 })

/-! ### The dispatcher's commands -/

/-- Stated, R144: SET_RGB with 3 stored bytes or more writes channel1, channel2, channel3 in this order, each the
first three bytes scaled; with fewer it writes nothing and raises UNDERRUN. Either way the payload is cleared and
nothing else changes. -/
def Obligations.SetRgbWritesThreeScaledChannels : Prop :=
  (decodeCommand 0xA0#8 0x00#8).instr = .setRgb ∧
  ∀ s : State,
    (3 ≤ s.cnt.toNat → ∃ r g b : Duty,
      r.toNat = s.par.maxDuty.toNat / 255 * (s.cell 0).toNat ∧
      g.toNat = s.par.maxDuty.toNat / 255 * (s.cell 1).toNat ∧
      b.toNat = s.par.maxDuty.toNat / 255 * (s.cell 2).toNat ∧
      exec .setRgb s = .next
        { s with
          cnt := 0#8
          duty := { s.duty with ch1 := r, ch2 := g, ch3 := b }
          out := { s.out with writes := s.out.writes ++ [⟨.ch1, r⟩, ⟨.ch2, g⟩, ⟨.ch3, b⟩] } }) ∧
    (s.cnt.toNat < 3 → exec .setRgb s = .next
      { s with
        cnt := 0#8
        out := { s.out with conds := s.out.conds ++ [.underrun s.app s.cmd s.len s.cnt] } })

/-- Stated, R145 to R147: SET_CH1, SET_CH2 and SET_CH3 write their one channel with the first byte scaled; with no
stored byte they write nothing and raise UNDERRUN. Either way the payload is cleared and nothing else changes. -/
def Obligations.SetChannelWritesOneScaledChannel : Prop :=
  ∀ x ∈ [(Instr.setCh1, 0x01#8, Channel.ch1), (Instr.setCh2, 0x02#8, Channel.ch2), (Instr.setCh3, 0x03#8, Channel.ch3)],
    (decodeCommand 0xA0#8 x.2.1).instr = x.1 ∧
    ∀ s : State,
      (1 ≤ s.cnt.toNat → ∃ d : Duty, d.toNat = s.par.maxDuty.toNat / 255 * (s.cell 0).toNat ∧
        exec x.1 s = .next
          { s with
            cnt := 0#8
            duty := s.duty.set x.2.2 d
            out := { s.out with writes := s.out.writes ++ [⟨x.2.2, d⟩] } }) ∧
      (s.cnt.toNat < 1 → exec x.1 s = .next
        { s with
          cnt := 0#8
          out := { s.out with conds := s.out.conds ++ [.underrun s.app s.cmd s.len s.cnt] } })

/-- Derived (the spec's decision D18 and its halving law R155): AUX_ON writes channel4 with half of MAX_DUTY, exact
for an even maximum and rounded down for an odd one, never above it; the payload is cleared and nothing else
changes. -/
def Obligations.AuxOnWritesHalfTheMaximum : Prop :=
  (decodeCommand 0xB0#8 0x01#8).instr = .auxOn ∧
  ∀ s : State, ∃ d : Duty,
    (s.par.maxDuty.toNat % 2 = 0 → 2 * d.toNat = s.par.maxDuty.toNat) ∧
    (s.par.maxDuty.toNat % 2 = 1 → 2 * d.toNat + 1 = s.par.maxDuty.toNat) ∧
    d.toNat ≤ s.par.maxDuty.toNat ∧
    exec .auxOn s = .next
      { s with
        cnt := 0#8
        duty := { s.duty with ch4 := d }
        out := { s.out with writes := s.out.writes ++ [⟨.ch4, d⟩] } }

/-- Stated, R149: AUX_OFF writes 0 to channel4, whatever it holds and whatever MAX_DUTY is; the payload is cleared
and nothing else changes. -/
def Obligations.AuxOffWritesZero : Prop :=
  (decodeCommand 0xB0#8 0x02#8).instr = .auxOff ∧
  ∀ s : State, exec .auxOff s = .next
    { s with
      cnt := 0#8
      duty := { s.duty with ch4 := 0x0000#16 }
      out := { s.out with writes := s.out.writes ++ [⟨.ch4, 0x0000#16⟩] } }

/-- Stated, R150 and R151 (R80 says so of both): a header outside the documented rows decodes to its namespace's
no-op, which raises UNKNOWN, writes no channel and clears the payload; and a byte that brings such a frame to its last
byte emits it, raises UNKNOWN, leaves the sink alone and leaves the block at position 0 with an empty payload. -/
def Obligations.UnlistedCommandsAreNoOps : Prop :=
  ∀ cmd : Byte,
    (4 ≤ cmd.toNat → (decodeCommand 0xA0#8 cmd).instr = .colorNop cmd) ∧
    (cmd.toNat = 0 ∨ 3 ≤ cmd.toNat → (decodeCommand 0xB0#8 cmd).instr = .auxNop cmd) ∧
    (∀ s : State, ∀ i ∈ [Instr.colorNop cmd, Instr.auxNop cmd], exec i s = .next
      { s with cnt := 0#8, out := { s.out with conds := s.out.conds ++ [.unknown s.app cmd] } }) ∧
    (∀ (s : State) (b : Byte) (rest : List InputEvent),
      s.input = .byte b :: rest → s.cmd = cmd → 2 ≤ s.pos.toNat →
      s.pos.toNat + 1 = (if s.pos.toNat = 2 then b.toNat else s.len.toNat) + 3 →
      (s.app = 0xA0#8 ∧ 4 ≤ cmd.toNat) ∨ (s.app = 0xB0#8 ∧ (cmd.toNat = 0 ∨ 3 ≤ cmd.toNat)) →
      ∃ (t : State) (f : Frame), step s = .next t ∧ t.out.frame = some f ∧ f.app = s.app ∧ f.cmd = cmd ∧
        t.out.writes = [] ∧ t.duty = s.duty ∧ t.out.conds.getLast? = some (.unknown s.app cmd) ∧
        t.pos = 0#9 ∧ t.cnt = 0#8)

/-- Derived (the spec's decision D7, R142): when a byte completes a documented colour command, its stored count is
short exactly when its declared length is; and then the sink is not written and UNDERRUN is raised. -/
def Obligations.ShortPayloadWritesNothing : Prop :=
  ∀ x ∈ [(0x00#8, 3), (0x01#8, 1), (0x02#8, 1), (0x03#8, 1)],
    ∀ (s t : State) (b : Byte) (rest : List InputEvent) (f : Frame),
      s.Inv → s.input = .byte b :: rest → step s = .next t → t.out.frame = some f →
      f.app = 0xA0#8 → f.cmd = x.1 →
      (f.cnt.toNat < x.2 ↔ f.len.toNat < x.2) ∧
      (f.len.toNat < x.2 →
        t.out.writes = [] ∧ t.duty = s.duty ∧ t.out.conds = [.underrun f.app f.cmd f.len f.cnt])

/-- Derived (sections 3 of spec/30_encoding.md and 1, 2 of spec/41_command_dispatcher.md): a byte that completes a
frame makes exactly the sink writes the command map asks for with the frame's own bytes, in order, and the sink ends
as those writes leave it. -/
def Obligations.EveryCompletedFrameDrivesTheSink : Prop :=
  ∀ (s t : State) (b : Byte) (rest : List InputEvent) (f : Frame),
    s.input = .byte b :: rest → step s = .next t → t.out.frame = some f →
    writeNumbers t.out.writes = tableWrites s.par.maxDuty.toNat f ∧ t.duty = applyWrites s.duty t.out.writes

/-- Stated, R54: clearing sets `cnt` to 0 and writes no cell, and every command ends with it. -/
def Obligations.EveryCommandClearsWithoutWritingCells : Prop :=
  (∀ s : State, clear s = { s with cnt := 0#8 } ∧ ∀ i, (clear s).cell i = s.cell i) ∧
  ∀ (c : Command) (s : State), ∃ t : State, exec c.instr s = .next t ∧
    t.cnt = 0#8 ∧ t.buf = s.buf ∧ ∀ i, t.cell i = s.cell i

/-- Stated, R152: the clear runs at the end of every dispatch and only there. So a byte that completes a frame leaves
`cnt` 0 and the cells it read as they are, and any other byte leaves `cnt` as it was or one higher. -/
def Obligations.PayloadIsClearedByDispatchOnly : Prop :=
  (∀ s : State, clear s = { s with cnt := 0#8 }) ∧
  (∀ (c : Command) (s : State), ∃ t : State, exec c.instr s = .next t ∧ t.cnt = 0#8) ∧
  ∀ (s t : State) (b : Byte) (rest : List InputEvent),
    s.input = .byte b :: rest → step s = .next t →
    (∀ f, t.out.frame = some f → t.cnt = 0#8 ∧ f.payload = (List.range f.cnt.toNat).map t.cell) ∧
    (t.out.frame = none → t.cnt = s.cnt ∨ (t.cnt.toNat = s.cnt.toNat + 1 ∧ t.cell s.cnt.toNat = b))

/-- Stated, R143: a command's writes depend on `app`, `cmd`, `cnt`, MAX_DUTY and the required payload bytes alone; its
conditions depend on `len` besides; and it writes no register but `cnt`. -/
def Obligations.DispatcherReadsOnlyItsFrame : Prop :=
  ∀ (c : Command) (s s' : State),
    s'.app = s.app → s'.cmd = s.cmd → s'.cnt = s.cnt → s'.par.maxDuty = s.par.maxDuty →
    (∀ i, i < requiredPayload c → s'.cell i = s.cell i) →
    ∃ (t t' : State) (ws : List SinkWrite),
      exec c.instr s = .next t ∧ exec c.instr s' = .next t' ∧
      t.out.writes = s.out.writes ++ ws ∧ t'.out.writes = s'.out.writes ++ ws ∧
      (s'.len = s.len → ∃ cs : List Condition, t.out.conds = s.out.conds ++ cs ∧ t'.out.conds = s'.out.conds ++ cs) ∧
      { t with cnt := s.cnt, duty := s.duty, out := s.out } = s ∧ t.cnt = 0#8

/-- Derived (the spec's decisions D12, R9, R66, R153): a byte makes no sink write, or those of one command: channel1,
channel2, channel3 in this order, or one channel alone. It makes none without a completed frame. -/
def Obligations.AStepWritesForOneCommandAtMost : Prop :=
  ∀ (s t : State) (b : Byte) (rest : List InputEvent),
    s.input = .byte b :: rest → step s = .next t →
    (t.out.frame = none → t.out.writes = []) ∧
    t.out.writes.map SinkWrite.ch ∈
      [[], [Channel.ch1, .ch2, .ch3], [Channel.ch1], [Channel.ch2], [Channel.ch3], [Channel.ch4]]

/-- Derived (R141's overflow bound, which the spec derives): the scaling is exact on numbers and never exceeds
MAX_DUTY. -/
def Obligations.ScalingIsExactAndBounded : Prop :=
  ∀ (m : Duty) (v : Byte),
    (scale m v).toNat = m.toNat / 255 * v.toNat ∧ (scale m v).toNat ≤ m.toNat ∧ m.toNat / 255 ≤ 257

/-- Derived (R154, which the spec derives): the scaling laws. -/
def Obligations.ScalingLaws : Prop :=
  ∀ m : Duty,
    scale m 0x00#8 = 0#16 ∧
    (∀ v w : Byte, v.toNat ≤ w.toNat → (scale m v).toNat ≤ (scale m w).toNat) ∧
    ((scale m 0xFF#8 = m) ↔ m.toNat % 255 = 0) ∧
    (scale m 0xFF#8).toNat + m.toNat % 255 = m.toNat ∧
    (m.toNat < 255 → ∀ v : Byte, scale m v = 0#16)

/-! ### Decoding and encoding -/

/-- Derived (R76, whose totality the spec derives for legal states): the six rows of the assembler's decoding, each by
its condition on position, count and byte. R76's FEED_DROP row names a full buffer, a count equal to the capacity; a
count above it, which no legal state has, is FEED_DROP by the else of R100's pseudocode (notes/assumptions/10.md). -/
def Obligations.FeedDecodingFollowsTheState : Prop :=
  ∀ (c : FeedCtx) (b : Byte),
    (decodeFeed c b = .feedApp b ↔ c.pos.toNat = 0 ∧ (b = 0xA0#8 ∨ b = 0xB0#8)) ∧
    (decodeFeed c b = .feedNoise b ↔ c.pos.toNat = 0 ∧ b ≠ 0xA0#8 ∧ b ≠ 0xB0#8) ∧
    (decodeFeed c b = .feedCmd b ↔ c.pos.toNat = 1) ∧
    (decodeFeed c b = .feedLen b ↔ c.pos.toNat = 2) ∧
    (decodeFeed c b = .feedPay b ↔ 3 ≤ c.pos.toNat ∧ c.cnt.toNat < c.cap) ∧
    (decodeFeed c b = .feedDrop b ↔ 3 ≤ c.pos.toNat ∧ c.cap ≤ c.cnt.toNat)

/-- Derived (the command map of R77, whose names are the spec's decision D15): which header decodes to which
command. -/
def Obligations.CommandMapDecodes : Prop :=
  ∀ app cmd : Byte, app = 0xA0#8 ∨ app = 0xB0#8 →
    (decodeCommand app cmd = .setRgb ↔ app = 0xA0#8 ∧ cmd = 0x00#8) ∧
    (decodeCommand app cmd = .setCh1 ↔ app = 0xA0#8 ∧ cmd = 0x01#8) ∧
    (decodeCommand app cmd = .setCh2 ↔ app = 0xA0#8 ∧ cmd = 0x02#8) ∧
    (decodeCommand app cmd = .setCh3 ↔ app = 0xA0#8 ∧ cmd = 0x03#8) ∧
    (decodeCommand app cmd = .auxOn ↔ app = 0xB0#8 ∧ cmd = 0x01#8) ∧
    (decodeCommand app cmd = .auxOff ↔ app = 0xB0#8 ∧ cmd = 0x02#8) ∧
    (∀ c, decodeCommand app cmd = .colorNop c ↔ c = cmd ∧ app = 0xA0#8 ∧ 4 ≤ cmd.toNat) ∧
    (∀ c, decodeCommand app cmd = .auxNop c ↔ c = cmd ∧ app = 0xB0#8 ∧ (cmd.toNat = 0 ∨ 3 ≤ cmd.toNat))

/-- Derived (spec/30_encoding.md sections 2 and 3): every well-formed instruction, at any state its row selects it in,
is decoded from its encoding, with every operand at every value the encoding admits. -/
def Obligations.DecodeOfEncodeIsTheInstruction : Prop :=
  ∀ (c : FeedCtx) (i : Instr), i.wf = true → selectedIn c i = true → decode c (encode i) = .ok i

/-- Derived (spec/30_encoding.md sections 2 and 3): whatever bytes the decoder accepts are the encoding of the
instruction it answers, which is well formed and selected there. -/
def Obligations.EncodeOfDecodeIsTheBytes : Prop :=
  ∀ (c : FeedCtx) (bytes : List Byte) (i : Instr), decode c bytes = .ok i →
    encode i = bytes ∧ i.wf = true ∧ selectedIn c i = true

/-- Derived, a sanity check (the encodings of R76 and R77 written out bit by bit): words of each family. That a bare
8-bit word is read as a byte arriving at Idle, though R76 selects the row by the state, is the model's choice, and that
a 16-bit word has the app byte in bits 15:8 is read from R77 (notes/assumptions/11.md). -/
def Obligations.WrittenOutWordsDecode : Prop :=
  decodeTableWord 8 0b10100000 = some (.feedApp 0xA0#8) ∧
  decodeTableWord 8 0b10110000 = some (.feedApp 0xB0#8) ∧
  decodeTableWord 8 0b11111111 = some (.feedNoise 0xFF#8) ∧
  decodeTableWord 16 0b1010000000000000 = some .setRgb ∧
  decodeTableWord 16 0b1011000000000010 = some .auxOff ∧
  decodeTableWord 16 0b1011000000000000 = some (.auxNop 0x00#8) ∧
  decodeTableWord 16 0b1100000000000000 = none

/-- Stated, R79: at position 0 a byte that is no marker is discarded with NOISE and the position stays 0; a header
spells no command exactly when its first byte is no marker; and away from position 0 the row taken does not depend on
the byte's value. -/
def Obligations.MarkersMatterAtOffsetZeroOnly : Prop :=
  (∀ (s : State) (b : Byte) (rest : List InputEvent), s.pos = 0#9 → b ≠ 0xA0#8 → b ≠ 0xB0#8 →
    s.input = .byte b :: rest →
    step s = .next { s with input := rest, out := { conds := [.noise b] } }) ∧
  (∀ (c : FeedCtx) (app cmd : Byte),
    (∃ e, decode c [app, cmd] = .error e) ↔ app ≠ 0xA0#8 ∧ app ≠ 0xB0#8) ∧
  (∀ s : State, s.pos ≠ 0#9 →
    ∃ row ∈ [Instr.feedCmd, Instr.feedLen, Instr.feedPay, Instr.feedDrop], ∀ b : Byte, feedInstr s b = row b)

/-! ### Steps -/

/-- Derived (R76, R100): a step over a byte is the decoded instruction's meaning, at the state with the byte taken from
the source and the last step's observation dropped (notes/assumptions/9.md). -/
def Obligations.StepRunsTheDecodedInstruction : Prop :=
  ∀ (s : State) (b : Byte) (rest : List InputEvent) (i : Instr), s.input = .byte b :: rest →
    decode s.feedCtx [b] = .ok i → step s = exec i { s with input := rest, out := {} }

/-- Stated, R57: what a read yields is a byte or an error, a reset being the one other event; with nothing there the
block waits, for ever if need be, and its state does not change; and it waits for nothing else. -/
def Obligations.TheBlockWaitsForTheNextByte : Prop :=
  (∀ e : InputEvent, e ≠ .reset → (∃ b, e = .byte b) ∨ e = .readError) ∧
  (∀ s : State, s.input = [] → ∀ k, runSteps k s = .next s) ∧
  ∀ (s : State) (e : InputEvent) (rest : List InputEvent), s.input = e :: rest →
    ∃ t : State, step s = .next t ∧ t.input = rest

/-- Derived (the spec's decision D11, R186): a read failure raises SRC_ERROR and changes nothing else; the next read
follows. -/
def Obligations.SourceErrorStutters : Prop :=
  ∀ (s : State) (rest : List InputEvent), s.input = .readError :: rest →
    step s = .next { s with input := rest, out := { frame := none, writes := [], conds := [.srcError] } }

/-- Derived (the spec's decisions D9, D10, D20; R188, R210 to R212): a reset, at any position, leaves the reset values,
an empty observation, unspecified cells, the sink's duties as they are and the bytes after it unconsumed. -/
def Obligations.ResetDiscardsTheFrame : Prop :=
  ∀ (s : State) (rest : List InputEvent), s.input = .reset :: rest → ∃ t : State, step s = .next t ∧
    t.pos = 0#9 ∧ t.cnt = 0#8 ∧ t.app = 0x00#8 ∧ t.cmd = 0x00#8 ∧ t.len = 0x00#8 ∧ t.out = {} ∧
    t.duty = s.duty ∧ t.par = s.par ∧ t.input = rest ∧ t.draws = s.draws + 1 ∧
    ∀ i, t.cell i = Config.unspecifiedByte t.draws i

/-- Derived (the spec's decision D9, R40, R41, R211; the free values are notes/assumptions/3.md to 5.md): the state
after power-on, under any parameters and any duties of the sink, and the machine's reset state among them. -/
def Obligations.PowerOnStateIsIdle : Prop :=
  (∀ (p : Params) (d : DutyCells), ∃ s, s = State.powerOn p d ∧
    s.pos = 0#9 ∧ s.cnt = 0#8 ∧ s.app = 0x00#8 ∧ s.cmd = 0x00#8 ∧ s.len = 0x00#8 ∧
    s.par = p ∧ s.duty = d ∧ s.input = [] ∧ s.out = {} ∧
    ∀ i, s.cell i = Config.unspecifiedByte s.draws i) ∧
  ∃ d : DutyCells, State.reset = State.powerOn Config.params d ∧ ∀ ch, d.get ch = Config.initDuty ch

/-- Stated, R58: every step takes exactly the next event of the source, in order, and leaves the rest. -/
def Obligations.EachByteIsConsumedOnce : Prop :=
  ∀ (s : State) (e : InputEvent) (rest : List InputEvent), s.input = e :: rest →
    ∃ t : State, step s = .next t ∧ t.input = rest

/-- Derived (R156, R180, R198): the block has no fault and never stops: every step of every state answers a next
state. -/
def Obligations.EveryStepAnswersANextState : Prop :=
  ∀ s : State, ∃ t : State, step s = .next t

/-- Derived (R24 and R25, which the spec derives): every step keeps I1 to I5. -/
def Obligations.EveryStepKeepsTheInvariant : Prop :=
  ∀ s t : State, s.Inv → step s = .next t → t.Inv

/-- Derived (R25, which the spec derives): I1 to I5 hold after power-on under any parameters, and at the machine's
reset state. -/
def Obligations.ResetEstablishesTheInvariant : Prop :=
  (∀ (p : Params) (d : DutyCells), (State.powerOn p d).Inv) ∧ State.reset.Inv

/-- Derived (R25, R198): from every legal state every run goes on for ever through legal states, whatever the source
presents. -/
def Obligations.RunsFromLegalStatesAreSafe : Prop :=
  ∀ s : State, s.Inv → s.Safe

/-- Derived (R33, R50, R52, R53; the memory's form is notes/assumptions/5.md): every step keeps the buffer's canonical
form, its indices within the buffer, and every cell below `cnt` written. -/
def Obligations.EveryStepKeepsTheBufferForm : Prop :=
  ∀ s t : State, s.BufOk → step s = .next t → t.BufOk

/-- Derived (R40, R50): the buffer's form after power-on, and at the machine's reset state. -/
def Obligations.ResetEstablishesTheBufferForm : Prop :=
  (∀ (p : Params) (d : DutyCells), (State.powerOn p d).BufOk) ∧ State.reset.BufOk

/-- Derived (R27, whose sentences on what the block does not have no statement holds): a byte sets `pos` to `pos + 1`
or to 0; without a byte it stays, or a reset sets it to 0; no command writes it. -/
def Obligations.PositionAdvancesByOneOrReturnsToIdle : Prop :=
  (∀ (s t : State) (b : Byte) (rest : List InputEvent), s.input = .byte b :: rest → step s = .next t →
    t.pos = s.pos + 1#9 ∨ t.pos = 0#9) ∧
  (∀ s t : State, step s = .next t → (∀ b rest, s.input ≠ .byte b :: rest) → t.pos = s.pos ∨ t.pos = 0#9) ∧
  ∀ (c : Command) (s : State), ∃ t : State, exec c.instr s = .next t ∧ t.pos = s.pos

/-- Stated, R52: a byte writes a cell only as FEED_PAY, the cell at `cnt`, which is below PAYLOAD_CAP, and then `cnt`
counts it unless the frame ends; with the buffer full it writes nothing and `cnt` stays unless the frame ends. -/
def Obligations.BufferIsFilledInArrivalOrder : Prop :=
  (∀ (s t : State) (b : Byte) (rest : List InputEvent), s.input = .byte b :: rest → step s = .next t →
    (feedInstr s b = .feedPay b →
      s.cnt.toNat < s.capacity ∧ t.cell s.cnt.toNat = b ∧ (∀ j, j ≠ s.cnt.toNat → t.cell j = s.cell j) ∧
        (t.out.frame = none → t.cnt.toNat = s.cnt.toNat + 1)) ∧
    (feedInstr s b ≠ .feedPay b →
      (∀ j, t.cell j = s.cell j) ∧ (t.out.frame = none → t.cnt = s.cnt)) ∧
    (s.cnt.toNat = s.capacity → feedInstr s b ≠ .feedPay b)) ∧
  ∀ (c : Command) (s : State), ∃ t : State, exec c.instr s = .next t ∧ ∀ j, t.cell j = s.cell j

/-- Derived (the spec's decision D4, R31, R63; notes/assumptions/2.md): no step changes PAYLOAD_CAP or MAX_DUTY. -/
def Obligations.ParametersAreConstant : Prop :=
  ∀ s t : State, step s = .next t → t.par = s.par

/-- Derived (the spec's decisions D12, D22; R62, R66): after any transition the sink holds what the transition's writes,
applied in order, leave of what it held. -/
def Obligations.SinkFollowsTheWritesInOrder : Prop :=
  ∀ (s : State) (e : InputEvent) (rest : List InputEvent), s.input = e :: rest →
    ∃ t : State, step s = .next t ∧ t.duty = applyWrites s.duty t.out.writes

/-- Derived (the spec's decision D22, R62): a sink write sets its channel, leaves the other three, joins the step's
list, and changes nothing else. -/
def Obligations.SinkWriteSetsOneChannel : Prop :=
  ∀ (ch : Channel) (v : Duty) (s : State), ∃ t, t = sinkWrite ch v s ∧
    t.duty.get ch = v ∧ (∀ ch', ch' ≠ ch → t.duty.get ch' = s.duty.get ch') ∧
    t.out.writes = s.out.writes ++ [⟨ch, v⟩] ∧
    { t with duty := s.duty, out := { t.out with writes := s.out.writes } } = s

/-- Derived (the spec's decision D22, R62): the block never reads a channel's duty back: runs from states that differ in
the sink alone differ in the sink alone. -/
def Obligations.SinkIsNeverReadBack : Prop :=
  ∀ (s : State) (d : DutyCells) (k : Nat), ∃ (t : State) (d' : DutyCells),
    runSteps k s = .next t ∧
    runSteps k { s with duty := d } = .next { t with duty := d' }

/-- Derived (R33, R41, which the spec derives; R53): bytes in cells at or above `cnt` never reach an output: runs from
states that differ there alone emit the same frames, writes and conditions, and go on differing there alone. -/
def Obligations.HiddenCellsNeverReachAnOutput : Prop :=
  ∀ s s' : State, s.SameButHidden s' → ∀ k, ∃ t t' : State,
    runSteps k s = .next t ∧ runSteps k s' = .next t' ∧
    t'.out = t.out ∧ t'.duty = t.duty ∧ t.SameButHidden t'

/-- Derived (R26, which the spec derives): stale header registers are never observed: runs from states that differ in
those alone emit the same frames, writes and conditions, and go on differing in those alone. -/
def Obligations.StaleHeadersNeverReachAnOutput : Prop :=
  ∀ s s' : State, s.SameButStale s' → ∀ k, ∃ t t' : State,
    runSteps k s = .next t ∧ runSteps k s' = .next t' ∧
    t'.out = t.out ∧ t'.duty = t.duty ∧ t.SameButStale t'

/-- Derived (the spec's decisions D6, D17; R110, R111, R120): a byte emits a frame exactly when it brings the position,
from 2 or more, to the length in force plus 3; the frame then has the header registers' values, and the block is back
at position 0 with an empty payload. -/
def Obligations.FrameIsEmittedExactlyAtItsLastByte : Prop :=
  ∀ (s t : State) (b : Byte) (rest : List InputEvent), s.input = .byte b :: rest → step s = .next t →
    (t.out.frame.isSome = true ↔
      2 ≤ s.pos.toNat ∧ s.pos.toNat + 1 = (if s.pos.toNat = 2 then b.toNat else s.len.toNat) + 3) ∧
    ∀ f, t.out.frame = some f →
      f.app = s.app ∧ f.cmd = s.cmd ∧ f.len = t.len ∧ (t.len = if s.pos.toNat = 2 then b else s.len) ∧
      t.pos = 0#9 ∧ t.cnt = 0#8

/-- Derived (R121, which the spec derives): from a legal state, an emitted frame's payload has min(len, PAYLOAD_CAP)
bytes, the cells in order. -/
def Obligations.EmittedPayloadHasTheDeclaredLengthUpToCapacity : Prop :=
  ∀ (s t : State) (b : Byte) (rest : List InputEvent) (f : Frame), s.Inv → s.input = .byte b :: rest →
    step s = .next t → t.out.frame = some f →
    f.payload.length = min f.len.toNat s.capacity ∧ f.cnt.toNat = f.payload.length ∧
    ∀ i, i < f.payload.length → f.payload[i]? = some (t.cell i)

/-- Derived (R121, R122, which the spec derives; R225): from Idle, a frame on the wire, of any command, any length and
any payload, is completed by exactly its last byte, with its first min(len, PAYLOAD_CAP) payload bytes, and leaves the
block ready for the next frame. -/
def Obligations.AFrameCompletesOnItsLastByte : Prop :=
  ∀ (s : State) (app cmd len : Byte) (payload : List Byte) (rest : List InputEvent),
    s.pos = 0#9 → s.cnt = 0#8 → app = 0xA0#8 ∨ app = 0xB0#8 → payload.length = len.toNat →
    s.input = (frameBytes app cmd len payload).map .byte ++ rest →
    (∀ k, 0 < k → k < 3 + len.toNat → ∃ t : State, runSteps k s = .next t ∧
      t.out.frame = none ∧ t.out.writes = [] ∧ t.pos.toNat = k ∧ t.duty = s.duty) ∧
    ∃ t : State, runSteps (3 + len.toNat) s = .next t ∧
      t.out.frame = some
        { app := app, cmd := cmd, len := len, cnt := BitVec.ofNat 8 (min len.toNat s.capacity),
          payload := payload.take s.capacity } ∧
      t.pos = 0#9 ∧ t.cnt = 0#8 ∧ t.input = rest

/-- Derived (R182, which the spec derives): within a frame from Idle, DROP is raised by exactly the payload bytes after
the first PAYLOAD_CAP, each with its byte. -/
def Obligations.EachByteBeyondCapacityIsDropped : Prop :=
  ∀ (s : State) (app cmd len : Byte) (payload : List Byte) (rest : List InputEvent),
    s.pos = 0#9 → s.cnt = 0#8 → app = 0xA0#8 ∨ app = 0xB0#8 → payload.length = len.toNat →
    s.input = (frameBytes app cmd len payload).map .byte ++ rest →
    ∀ k, k < 3 + len.toNat → ∃ t : State, runSteps (k + 1) s = .next t ∧
      ∀ x : Byte, Condition.drop x ∈ t.out.conds ↔ 3 + s.capacity ≤ k ∧ payload[k - 3]? = some x

/-- Derived (R82, the spec's assembler notation, and the commands' rules): from Idle, the bytes of each of the six
mnemonic forms, with any operands, end in that command's sink writes, with no condition raised by the last byte. -/
def Obligations.AssembledCommandsDriveTheSink : Prop :=
  ∀ (s : State) (r g b v : Byte) (rest : List InputEvent) (m : Nat), m = s.par.maxDuty.toNat →
    ∀ x ∈ [(AsmForm.setRgb r g b,
              [(Channel.ch1, m / 255 * r.toNat), (.ch2, m / 255 * g.toNat), (.ch3, m / 255 * b.toNat)]),
            (AsmForm.setCh1 v, [(.ch1, m / 255 * v.toNat)]), (AsmForm.setCh2 v, [(.ch2, m / 255 * v.toNat)]),
            (AsmForm.setCh3 v, [(.ch3, m / 255 * v.toNat)]), (AsmForm.auxOn, [(.ch4, m / 2)]),
            (AsmForm.auxOff, [(.ch4, 0)])],
      s.pos = 0#9 → s.cnt = 0#8 → s.input = x.1.bytes.map .byte ++ rest →
      ∃ t : State, runSteps x.1.bytes.length s = .next t ∧
        writeNumbers t.out.writes = x.2 ∧ t.out.conds = [] ∧ t.pos = 0#9 ∧ t.cnt = 0#8 ∧ t.input = rest

/-- Derived (R187, which the spec derives): the conditions of one transition: none; NOISE alone; DROP, alone or before
UNKNOWN; UNKNOWN or UNDERRUN alone; SRC_ERROR alone, without a byte. UNDERRUN and DROP never meet. -/
def Obligations.ConditionsOfOneTransition : Prop :=
  ∀ (s : State) (e : InputEvent) (rest : List InputEvent), s.input = e :: rest →
    ∃ t : State, step s = .next t ∧
      match e with
      | .byte b =>
        t.out.conds = [] ∨ t.out.conds = [.noise b] ∨ t.out.conds = [.drop b] ∨
        t.out.conds = [.unknown s.app s.cmd] ∨ t.out.conds = [.drop b, .unknown s.app s.cmd] ∨
        t.out.conds = [.underrun s.app s.cmd t.len s.cnt] ∨
        t.out.conds = [.underrun s.app s.cmd t.len (s.cnt + 1#8)]
      | .readError => t.out.conds = [.srcError]
      | .reset => t.out.conds = []

/-- Derived (R112, which the spec derives, with its decision D5): from a legal state, comparing position and length in
8 bits, both sums wrapped, completes a frame at the same byte as the normative 9-bit test. -/
def Obligations.EightBitComparisonCompletesTheSameFrames : Prop :=
  ∀ (s t : State) (b : Byte) (rest : List InputEvent), s.Inv → s.input = .byte b :: rest → step s = .next t →
    (t.out.frame.isSome = true ↔
      2 ≤ s.pos.toNat ∧
        (s.pos.toNat + 1) % 256 = ((if s.pos.toNat = 2 then b.toNat else s.len.toNat) + 3) % 256)

/-- Stated, R113: the block leaves a position other than 0 by a byte or a reset only; without one it stays there for
ever; and away from Idle it takes whatever byte comes as the frame's own next byte. -/
def Obligations.OnlyBytesAndResetLeaveAFrame : Prop :=
  (∀ s t : State, s.pos ≠ 0#9 → step s = .next t → t.pos ≠ s.pos →
    ∃ rest, (∃ b, s.input = .byte b :: rest) ∨ s.input = .reset :: rest) ∧
  (∀ s : State, s.input = [] → ∀ k, runSteps k s = .next s) ∧
  (∀ (s : State) (n : Nat), s.input = List.replicate n .readError → ∀ k, ∃ t : State,
    runSteps k s = .next t ∧ t.pos = s.pos) ∧
  ∀ (s : State) (b : Byte), s.pos ≠ 0#9 →
    feedInstr s b ∈ [Instr.feedCmd b, Instr.feedLen b, Instr.feedPay b, Instr.feedDrop b]

/-- Derived, the spec's own port-level choice (R61, R69, R188; notes/assumptions/13.md): a reset wins at the ports and
takes no byte; a byte is accepted with in_valid high and in_err low, and is then the byte step; the channel codes are
`ch - 1`. -/
def Obligations.PortsPresentTheSameTransitions : Prop :=
  (∀ (p : PortIn) (s : State), p.rst = true → ∃ t : State, portStep p s = .next t ∧
    t.pos = 0#9 ∧ t.cnt = 0#8 ∧ ∀ n, portOut n t = { inReady := true, frame := none, dutyTransfers := [] }) ∧
  (∀ (p : PortIn) (s : State), p.rst = false → p.inErr = false → p.inValid = true →
    portStep p s =
      exec (feedInstr s p.inByte) { s with par := { s.par with maxDuty := p.maxDuty }, input := [], out := {} }) ∧
  (∀ (p : PortIn) (s : State), p.rst = false → p.inErr = false → p.inValid = false →
    portStep p s = .next { s with par := { s.par with maxDuty := p.maxDuty }, input := [], out := {} }) ∧
  (∀ (p : PortIn) (s : State), p.rst = false → p.inErr = true →
    portStep p s = .next
      { s with par := { s.par with maxDuty := p.maxDuty }, input := [], out := { conds := [.srcError] } }) ∧
  channelCode .ch1 = 0b00#2 ∧ channelCode .ch2 = 0b01#2 ∧ channelCode .ch3 = 0b10#2 ∧ channelCode .ch4 = 0b11#2

/-- Derived, the spec's own port-level choice (R69, R120, with R53's bound on what is read): after a transaction
frame_valid is high exactly if a frame was completed, and then the frame port carries its fields, the stored byte `i`
in lane `i` of frame_payload, for every stored byte. That lane `i` is bits 8*i+7 to 8*i is the model's choice
(notes/assumptions/18.md); nothing is said of the lanes past the stored bytes (notes/assumptions/19.md). -/
def Obligations.FramePortCarriesTheCompletedFrame : Prop :=
  ∀ (p : PortIn) (s t : State) (n : Nat), s.Inv → portStep p s = .next t →
    (portOut n t).inReady = true ∧
    (t.out.frame = none → (portOut n t).frame = none) ∧
    ∀ f, t.out.frame = some f → ∃ q : FramePort t.capacity, (portOut n t).frame = some q ∧
      q.app = f.app ∧ q.cmd = f.cmd ∧ q.len = f.len ∧ q.cnt = f.cnt ∧
      q.cnt.toNat = min q.len.toNat t.capacity ∧
      ∀ i, i < q.cnt.toNat →
        q.payload.extractLsb' (8 * i) 8 = t.cell i ∧ f.payload[i]? = some (q.payload.extractLsb' (8 * i) 8)
end

