-- ==== Sys2Proof/Laws/Decode.lean ====
section
/-! SUPPORT. What the decoders can answer. -/

namespace Sys2Proof

theorem isMarker_iff (b : Byte) : isMarker b = true ↔ b = 0xA0#8 ∨ b = 0xB0#8 := by
  simp [isMarker]

theorem faState_zero {p : PosWord} (h : p.toNat = 0) : faState p = .sApp := by simp [faState, h]

theorem faState_one {p : PosWord} (h : p.toNat = 1) : faState p = .sCmd := by simp [faState, h]

theorem faState_two {p : PosWord} (h : p.toNat = 2) : faState p = .sLen := by simp [faState, h]

theorem faState_pay {p : PosWord} (h : 3 ≤ p.toNat) : faState p = .sPay := by
  simp [faState, show p.toNat ≠ 0 by omega, show p.toNat ≠ 1 by omega, show p.toNat ≠ 2 by omega]

/-- All that the assembler's decoder can answer, with the condition of each row (R76). -/
theorem decodeFeed_cases (c : FeedCtx) (b : Byte) :
    (c.pos.toNat = 0 ∧ isMarker b = true ∧ decodeFeed c b = .feedApp b) ∨
    (c.pos.toNat = 0 ∧ isMarker b = false ∧ decodeFeed c b = .feedNoise b) ∨
    (c.pos.toNat = 1 ∧ decodeFeed c b = .feedCmd b) ∨
    (c.pos.toNat = 2 ∧ decodeFeed c b = .feedLen b) ∨
    (3 ≤ c.pos.toNat ∧ c.cnt.toNat < c.cap ∧ decodeFeed c b = .feedPay b) ∨
    (3 ≤ c.pos.toNat ∧ c.cap ≤ c.cnt.toNat ∧ decodeFeed c b = .feedDrop b) := by
  by_cases h0 : c.pos.toNat = 0
  · cases hb : isMarker b <;> simp [decodeFeed, faState_zero h0, hb, h0]
  by_cases h1 : c.pos.toNat = 1
  · simp [decodeFeed, faState_one h1, h1]
  by_cases h2 : c.pos.toNat = 2
  · simp [decodeFeed, faState_two h2, h2]
  have h3 : 3 ≤ c.pos.toNat := by omega
  by_cases hc : c.cnt.toNat < c.cap
  · simp [decodeFeed, faState_pay h3, hc, h3]
  · simp [decodeFeed, faState_pay h3, hc, h3, Nat.le_of_not_lt hc]

/-- An opcode is its two bytes. -/
theorem opcode_eq_iff (app cmd : Byte) (k : BitVec 16) :
    app ++ cmd = k ↔ app.toNat = k.toNat / 256 ∧ cmd.toNat = k.toNat % 256 := by
  have hc := cmd.isLt
  have ha := app.isLt
  have hk := k.isLt
  rw [← BitVec.toNat_inj, BitVec.toNat_append, ← Nat.shiftLeft_add_eq_or_of_lt hc, Nat.shiftLeft_eq]
  omega

end Sys2Proof
end

