-- ==== Sys2Proof/Laws/State.lean ====
section
/-! SUPPORT. What each named update of the state does to each field, and to what is read through the buffer. -/

namespace Sys2Proof.Machine

@[simp] theorem raise_pos (c : Condition) (s : State) : (raise c s).pos = s.pos := rfl
@[simp] theorem raise_app (c : Condition) (s : State) : (raise c s).app = s.app := rfl
@[simp] theorem raise_cmd (c : Condition) (s : State) : (raise c s).cmd = s.cmd := rfl
@[simp] theorem raise_len (c : Condition) (s : State) : (raise c s).len = s.len := rfl
@[simp] theorem raise_cnt (c : Condition) (s : State) : (raise c s).cnt = s.cnt := rfl
@[simp] theorem raise_buf (c : Condition) (s : State) : (raise c s).buf = s.buf := rfl
@[simp] theorem raise_par (c : Condition) (s : State) : (raise c s).par = s.par := rfl
@[simp] theorem raise_duty (c : Condition) (s : State) : (raise c s).duty = s.duty := rfl
@[simp] theorem raise_input (c : Condition) (s : State) : (raise c s).input = s.input := rfl
@[simp] theorem raise_out (c : Condition) (s : State) : (raise c s).out = { s.out with conds := s.out.conds ++ [c] } := rfl
@[simp] theorem raise_draws (c : Condition) (s : State) : (raise c s).draws = s.draws := rfl
@[simp] theorem raise_capacity (c : Condition) (s : State) : (raise c s).capacity = s.capacity := rfl
@[simp] theorem raise_cell (c : Condition) (s : State) (i : Nat) : (raise c s).cell i = s.cell i := rfl

@[simp] theorem sinkWrite_pos (ch : Channel) (v : Duty) (s : State) : (sinkWrite ch v s).pos = s.pos := rfl
@[simp] theorem sinkWrite_app (ch : Channel) (v : Duty) (s : State) : (sinkWrite ch v s).app = s.app := rfl
@[simp] theorem sinkWrite_cmd (ch : Channel) (v : Duty) (s : State) : (sinkWrite ch v s).cmd = s.cmd := rfl
@[simp] theorem sinkWrite_len (ch : Channel) (v : Duty) (s : State) : (sinkWrite ch v s).len = s.len := rfl
@[simp] theorem sinkWrite_cnt (ch : Channel) (v : Duty) (s : State) : (sinkWrite ch v s).cnt = s.cnt := rfl
@[simp] theorem sinkWrite_buf (ch : Channel) (v : Duty) (s : State) : (sinkWrite ch v s).buf = s.buf := rfl
@[simp] theorem sinkWrite_par (ch : Channel) (v : Duty) (s : State) : (sinkWrite ch v s).par = s.par := rfl
@[simp] theorem sinkWrite_duty (ch : Channel) (v : Duty) (s : State) : (sinkWrite ch v s).duty = s.duty.set ch v := rfl
@[simp] theorem sinkWrite_input (ch : Channel) (v : Duty) (s : State) : (sinkWrite ch v s).input = s.input := rfl
@[simp] theorem sinkWrite_out (ch : Channel) (v : Duty) (s : State) : (sinkWrite ch v s).out = { s.out with writes := s.out.writes ++ [{ ch := ch, value := v }] } := rfl
@[simp] theorem sinkWrite_draws (ch : Channel) (v : Duty) (s : State) : (sinkWrite ch v s).draws = s.draws := rfl
@[simp] theorem sinkWrite_capacity (ch : Channel) (v : Duty) (s : State) : (sinkWrite ch v s).capacity = s.capacity := rfl
@[simp] theorem sinkWrite_cell (ch : Channel) (v : Duty) (s : State) (i : Nat) : (sinkWrite ch v s).cell i = s.cell i := rfl

@[simp] theorem emitFrame_pos (s : State) : (emitFrame s).pos = s.pos := rfl
@[simp] theorem emitFrame_app (s : State) : (emitFrame s).app = s.app := rfl
@[simp] theorem emitFrame_cmd (s : State) : (emitFrame s).cmd = s.cmd := rfl
@[simp] theorem emitFrame_len (s : State) : (emitFrame s).len = s.len := rfl
@[simp] theorem emitFrame_cnt (s : State) : (emitFrame s).cnt = s.cnt := rfl
@[simp] theorem emitFrame_buf (s : State) : (emitFrame s).buf = s.buf := rfl
@[simp] theorem emitFrame_par (s : State) : (emitFrame s).par = s.par := rfl
@[simp] theorem emitFrame_duty (s : State) : (emitFrame s).duty = s.duty := rfl
@[simp] theorem emitFrame_input (s : State) : (emitFrame s).input = s.input := rfl
@[simp] theorem emitFrame_out (s : State) : (emitFrame s).out = { s.out with frame := some (currentFrame s) } := rfl
@[simp] theorem emitFrame_draws (s : State) : (emitFrame s).draws = s.draws := rfl
@[simp] theorem emitFrame_capacity (s : State) : (emitFrame s).capacity = s.capacity := rfl
@[simp] theorem emitFrame_cell (s : State) (i : Nat) : (emitFrame s).cell i = s.cell i := rfl

@[simp] theorem clear_pos (s : State) : (clear s).pos = s.pos := rfl
@[simp] theorem clear_app (s : State) : (clear s).app = s.app := rfl
@[simp] theorem clear_cmd (s : State) : (clear s).cmd = s.cmd := rfl
@[simp] theorem clear_len (s : State) : (clear s).len = s.len := rfl
@[simp] theorem clear_cnt (s : State) : (clear s).cnt = 0#8 := rfl
@[simp] theorem clear_buf (s : State) : (clear s).buf = s.buf := rfl
@[simp] theorem clear_par (s : State) : (clear s).par = s.par := rfl
@[simp] theorem clear_duty (s : State) : (clear s).duty = s.duty := rfl
@[simp] theorem clear_input (s : State) : (clear s).input = s.input := rfl
@[simp] theorem clear_out (s : State) : (clear s).out = s.out := rfl
@[simp] theorem clear_draws (s : State) : (clear s).draws = s.draws := rfl
@[simp] theorem clear_capacity (s : State) : (clear s).capacity = s.capacity := rfl
@[simp] theorem clear_cell (s : State) (i : Nat) : (clear s).cell i = s.cell i := rfl

@[simp] theorem toIdle_pos (s : State) : (toIdle s).pos = 0#9 := rfl
@[simp] theorem toIdle_app (s : State) : (toIdle s).app = s.app := rfl
@[simp] theorem toIdle_cmd (s : State) : (toIdle s).cmd = s.cmd := rfl
@[simp] theorem toIdle_len (s : State) : (toIdle s).len = s.len := rfl
@[simp] theorem toIdle_cnt (s : State) : (toIdle s).cnt = 0#8 := rfl
@[simp] theorem toIdle_buf (s : State) : (toIdle s).buf = s.buf := rfl
@[simp] theorem toIdle_par (s : State) : (toIdle s).par = s.par := rfl
@[simp] theorem toIdle_duty (s : State) : (toIdle s).duty = s.duty := rfl
@[simp] theorem toIdle_input (s : State) : (toIdle s).input = s.input := rfl
@[simp] theorem toIdle_out (s : State) : (toIdle s).out = s.out := rfl
@[simp] theorem toIdle_draws (s : State) : (toIdle s).draws = s.draws := rfl
@[simp] theorem toIdle_capacity (s : State) : (toIdle s).capacity = s.capacity := rfl
@[simp] theorem toIdle_cell (s : State) (i : Nat) : (toIdle s).cell i = s.cell i := rfl

@[simp] theorem resetBlock_pos (s : State) : (resetBlock s).pos = 0#9 := rfl
@[simp] theorem resetBlock_app (s : State) : (resetBlock s).app = 0x00#8 := rfl
@[simp] theorem resetBlock_cmd (s : State) : (resetBlock s).cmd = 0x00#8 := rfl
@[simp] theorem resetBlock_len (s : State) : (resetBlock s).len = 0x00#8 := rfl
@[simp] theorem resetBlock_cnt (s : State) : (resetBlock s).cnt = 0#8 := rfl
@[simp] theorem resetBlock_buf (s : State) : (resetBlock s).buf = [] := rfl
@[simp] theorem resetBlock_par (s : State) : (resetBlock s).par = s.par := rfl
@[simp] theorem resetBlock_duty (s : State) : (resetBlock s).duty = s.duty := rfl
@[simp] theorem resetBlock_input (s : State) : (resetBlock s).input = s.input := rfl
@[simp] theorem resetBlock_out (s : State) : (resetBlock s).out = {} := rfl
@[simp] theorem resetBlock_draws (s : State) : (resetBlock s).draws = s.draws + 1 := rfl
@[simp] theorem resetBlock_capacity (s : State) : (resetBlock s).capacity = s.capacity := rfl

@[simp] theorem sourceStutter_pos (s : State) : (sourceStutter s).pos = s.pos := rfl
@[simp] theorem sourceStutter_app (s : State) : (sourceStutter s).app = s.app := rfl
@[simp] theorem sourceStutter_cmd (s : State) : (sourceStutter s).cmd = s.cmd := rfl
@[simp] theorem sourceStutter_len (s : State) : (sourceStutter s).len = s.len := rfl
@[simp] theorem sourceStutter_cnt (s : State) : (sourceStutter s).cnt = s.cnt := rfl
@[simp] theorem sourceStutter_buf (s : State) : (sourceStutter s).buf = s.buf := rfl
@[simp] theorem sourceStutter_par (s : State) : (sourceStutter s).par = s.par := rfl
@[simp] theorem sourceStutter_duty (s : State) : (sourceStutter s).duty = s.duty := rfl
@[simp] theorem sourceStutter_input (s : State) : (sourceStutter s).input = s.input := rfl
@[simp] theorem sourceStutter_out (s : State) : (sourceStutter s).out = { conds := [.srcError] } := rfl
@[simp] theorem sourceStutter_draws (s : State) : (sourceStutter s).draws = s.draws := rfl
@[simp] theorem sourceStutter_capacity (s : State) : (sourceStutter s).capacity = s.capacity := rfl
@[simp] theorem sourceStutter_cell (s : State) (i : Nat) : (sourceStutter s).cell i = s.cell i := rfl

@[simp] theorem takeEvent_pos (rest : List InputEvent) (s : State) : (takeEvent s rest).pos = s.pos := rfl
@[simp] theorem takeEvent_app (rest : List InputEvent) (s : State) : (takeEvent s rest).app = s.app := rfl
@[simp] theorem takeEvent_cmd (rest : List InputEvent) (s : State) : (takeEvent s rest).cmd = s.cmd := rfl
@[simp] theorem takeEvent_len (rest : List InputEvent) (s : State) : (takeEvent s rest).len = s.len := rfl
@[simp] theorem takeEvent_cnt (rest : List InputEvent) (s : State) : (takeEvent s rest).cnt = s.cnt := rfl
@[simp] theorem takeEvent_buf (rest : List InputEvent) (s : State) : (takeEvent s rest).buf = s.buf := rfl
@[simp] theorem takeEvent_par (rest : List InputEvent) (s : State) : (takeEvent s rest).par = s.par := rfl
@[simp] theorem takeEvent_duty (rest : List InputEvent) (s : State) : (takeEvent s rest).duty = s.duty := rfl
@[simp] theorem takeEvent_input (rest : List InputEvent) (s : State) : (takeEvent s rest).input = rest := rfl
@[simp] theorem takeEvent_out (rest : List InputEvent) (s : State) : (takeEvent s rest).out = {} := rfl
@[simp] theorem takeEvent_draws (rest : List InputEvent) (s : State) : (takeEvent s rest).draws = s.draws := rfl
@[simp] theorem takeEvent_capacity (rest : List InputEvent) (s : State) : (takeEvent s rest).capacity = s.capacity := rfl
@[simp] theorem takeEvent_cell (rest : List InputEvent) (s : State) (i : Nat) : (takeEvent s rest).cell i = s.cell i := rfl

/-- A written cell is read as written; an unwritten one is the free byte of the current reset. -/
theorem cell_of_read {s : State} {i : Nat} {b : Byte} (h : Memory.read s.buf i = some b) : s.cell i = b := by
  simp [State.cell, h]

theorem cell_of_unread {s : State} {i : Nat} (h : Memory.read s.buf i = none) :
    s.cell i = Config.unspecifiedByte s.draws i := by
  simp [State.cell, h]

/-- A cell depends on the buffer and the reset's number alone. -/
theorem cell_congr {s t : State} (hb : t.buf = s.buf) (hd : t.draws = s.draws) (i : Nat) : t.cell i = s.cell i := by
  simp [State.cell, hb, hd]

/-- The stored payload depends on the count and the cells below it. -/
theorem storedPayload_congr {s t : State} (hc : t.cnt = s.cnt) (h : ∀ i, i < s.cnt.toNat → t.cell i = s.cell i) :
    storedPayload t = storedPayload s := by
  simp only [storedPayload, hc]
  exact List.map_congr_left fun i hi => h i (List.mem_range.1 hi)

@[simp] theorem storedPayload_length (s : State) : (storedPayload s).length = s.cnt.toNat := by
  simp [storedPayload]

theorem three_le_capacity (s : State) : 3 ≤ s.capacity := s.par.cap.atLeast3

theorem capacity_le_255 (s : State) : s.capacity ≤ 255 := s.par.cap.atMost255

end Sys2Proof.Machine
end

