-- ==== Sys2Proof/Laws/Memory.lean ====
section
/-! SUPPORT. The laws of the buffer's memory: reading back a write, leaving the other cells alone, and the canonical
form. -/

namespace Sys2Proof.Machine

@[simp] theorem memory_read_nil (i : Nat) : Memory.read [] i = none := rfl

@[simp] theorem memory_wf_nil : Memory.wf [] = true := rfl

/-- A write is read back. -/
@[simp] theorem memory_read_write_same (m : Memory) (i : Nat) (b : Byte) :
    Memory.read (Memory.write m i b) i = some b := by
  induction m with
  | nil => simp [Memory.write, Memory.read]
  | cons c m ih =>
    simp only [Memory.write]
    split
    · simp [Memory.read]
    · split
      · simp [Memory.read]
      · rename_i h1 h2
        simp [Memory.read, Ne.symm h2, ih]

/-- A write leaves every other index alone. -/
theorem memory_read_write_other (m : Memory) {i j : Nat} (b : Byte) (h : j ≠ i) :
    Memory.read (Memory.write m i b) j = Memory.read m j := by
  induction m with
  | nil => simp [Memory.write, Memory.read, Ne.symm h]
  | cons c m ih =>
    simp only [Memory.write]
    split
    · simp [Memory.read, Ne.symm h]
    · split
      · rename_i h2
        simp [Memory.read, ← h2, Ne.symm h]
      · simp [Memory.read, ih]

/-- What a written memory lists: the new pair, and pairs it listed before. -/
theorem memory_mem_write {m : Memory} {i : Nat} {b : Byte} {c : Host.Cell} (h : c ∈ Memory.write m i b) :
    c = (i, b) ∨ c ∈ m := by
  induction m with
  | nil => simpa [Memory.write] using h
  | cons d m ih =>
    simp only [Memory.write] at h
    split at h
    · simpa using h
    · split at h
      · simp only [List.mem_cons] at h ⊢
        rcases h with h | h
        · exact .inl h
        · exact .inr (.inr h)
      · simp only [List.mem_cons] at h ⊢
        rcases h with h | h
        · exact .inr (.inl h)
        · rcases ih h with h | h
          · exact .inl h
          · exact .inr (.inr h)

/-- The canonical form says that the indices rise strictly. -/
theorem memory_wf_iff (m : Memory) : Memory.wf m = true ↔ m.Pairwise (fun c d => c.1 < d.1) := by
  match m with
  | [] => simp
  | [c] => simp [Memory.wf]
  | c :: d :: m =>
    have ih := memory_wf_iff (d :: m)
    simp only [Memory.wf, Bool.and_eq_true, decide_eq_true_eq, ih, List.pairwise_cons, List.mem_cons]
    constructor
    · rintro ⟨h1, h2, h3⟩
      refine ⟨?_, h2, h3⟩
      rintro x (rfl | hx)
      · exact h1
      · exact h1.trans (h2 x hx)
    · rintro ⟨h1, h2, h3⟩
      exact ⟨h1 d (.inl rfl), h2, h3⟩

/-- A write keeps the canonical form. -/
theorem memory_wf_write {m : Memory} (i : Nat) (b : Byte) (h : Memory.wf m = true) :
    Memory.wf (Memory.write m i b) = true := by
  rw [memory_wf_iff] at h ⊢
  induction m with
  | nil => simp [Memory.write]
  | cons c m ih =>
    rw [List.pairwise_cons] at h
    simp only [Memory.write]
    split
    · rename_i hlt
      rw [List.pairwise_cons, List.pairwise_cons]
      refine ⟨?_, h⟩
      intro x hx
      rcases List.mem_cons.1 hx with rfl | hx
      · exact hlt
      · exact hlt.trans (h.1 x hx)
    · split
      · rename_i heq
        rw [List.pairwise_cons]
        exact ⟨fun x hx => by simpa [heq] using h.1 x hx, h.2⟩
      · rename_i h1 h2
        rw [List.pairwise_cons]
        refine ⟨?_, ih h.2⟩
        intro x hx
        rcases memory_mem_write hx with rfl | hx
        · exact Nat.lt_of_le_of_ne (Nat.le_of_not_lt h1) (Ne.symm h2)
        · exact h.1 x hx

/-- In canonical form, memories that read alike everywhere are the same data. -/
theorem memory_ext {m n : Memory} (hm : Memory.wf m = true) (hn : Memory.wf n = true)
    (h : ∀ i, Memory.read m i = Memory.read n i) : m = n := by
  rw [memory_wf_iff] at hm hn
  have none_of_lt : ∀ (l : Memory) (i : Nat), (∀ x ∈ l, i < x.1) → Memory.read l i = none := by
    intro l i hl
    induction l with
    | nil => rfl
    | cons c l ih =>
      have := hl c (by simp)
      simp only [Memory.read, if_neg (Nat.ne_of_gt this)]
      exact ih fun x hx => hl x (by simp [hx])
  induction m generalizing n with
  | nil =>
    cases n with
    | nil => rfl
    | cons d n => simpa [Memory.read] using h d.1
  | cons c m ih =>
    cases n with
    | nil => simpa [Memory.read] using h c.1
    | cons d n =>
      rw [List.pairwise_cons] at hm hn
      have hcd : c.1 = d.1 := by
        rcases Nat.lt_trichotomy c.1 d.1 with hlt | heq | hgt
        · have := h c.1
          rw [none_of_lt (d :: n) c.1 (by
            intro x hx
            rcases List.mem_cons.1 hx with rfl | hx
            · exact hlt
            · exact hlt.trans (hn.1 x hx))] at this
          simp [Memory.read] at this
        · exact heq
        · have := h d.1
          rw [none_of_lt (c :: m) d.1 (by
            intro x hx
            rcases List.mem_cons.1 hx with rfl | hx
            · exact hgt
            · exact hgt.trans (hm.1 x hx))] at this
          simp [Memory.read] at this
      have hv : c.2 = d.2 := by
        have := h c.1
        simpa [Memory.read, hcd] using this
      have hc : c = d := Prod.ext hcd hv
      subst hc
      congr 1
      refine ih hm.2 hn.2 fun i => ?_
      by_cases hi : c.1 = i
      · subst hi
        rw [none_of_lt m _ hm.1, none_of_lt n _ hn.1]
      · simpa [Memory.read, hi] using h i

/-- The cell written. -/
@[simp] theorem cell_write_same (s : State) (i : Nat) (b : Byte) :
    ({ s with buf := Memory.write s.buf i b } : State).cell i = b := by
  simp [State.cell]

/-- The cells not written. -/
theorem cell_write_other (s : State) {i j : Nat} (b : Byte) (h : j ≠ i) :
    ({ s with buf := Memory.write s.buf i b } : State).cell j = s.cell j := by
  simp [State.cell, memory_read_write_other _ _ h]

end Sys2Proof.Machine
end

