-- ==== Sys2Proof/Laws/Ops.lean ====
section
/-! SUPPORT. What each shared operation can do: sequencing, the two buffer accesses, the sink's cells, the scaling and
the halving, the completion test. -/

namespace Sys2Proof.Machine

@[simp] theorem andThen_next (s : State) (k : State → Res) : andThen (.next s) k = k s := rfl

@[simp] theorem andThen_fault (f : Fault) (k : State → Res) : andThen (.fault f) k = .fault f := rfl

@[simp] theorem andThen_refused (q : Refusal) (k : State → Res) : andThen (.refused q) k = .refused q := rfl

/-- A sequence that answers a next state went through one in between. -/
theorem andThen_eq_next {r : Res} {k : State → Res} {t : State} :
    andThen r k = .next t ↔ ∃ s, r = .next s ∧ k s = .next t := by
  cases r <;> simp [andThen]

/-- A read of a cell of the buffer. -/
theorem bufRead_of_lt {i : Nat} {s : State} (h : i < s.capacity) (k : Byte → Res) : bufRead i s k = k (s.cell i) := by
  simp [bufRead, h]

/-- A write of a cell of the buffer. -/
theorem bufWrite_of_lt {i : Nat} {s : State} (h : i < s.capacity) (b : Byte) :
    bufWrite i b s = .next { s with buf := Memory.write s.buf i b } := by
  simp [bufWrite, h]

/-- All that a buffer write can do. -/
theorem bufWrite_eq_next {i : Nat} {b : Byte} {s t : State} :
    bufWrite i b s = .next t ↔ i < s.capacity ∧ t = { s with buf := Memory.write s.buf i b } := by
  unfold bufWrite
  split <;> rename_i h
  · simp [h, eq_comm]
  · simp [h]

@[simp] theorem dutyCells_get_set_same (d : DutyCells) (ch : Channel) (v : Duty) : (d.set ch v).get ch = v := by
  cases ch <;> rfl

theorem dutyCells_get_set_other (d : DutyCells) {ch ch' : Channel} (v : Duty) (h : ch' ≠ ch) :
    (d.set ch v).get ch' = d.get ch' := by
  cases ch <;> cases ch' <;> first | rfl | exact absurd rfl h

@[simp] theorem applyWrites_nil (d : DutyCells) : applyWrites d [] = d := rfl

theorem applyWrites_append (d : DutyCells) (ws vs : List SinkWrite) :
    applyWrites d (ws ++ vs) = applyWrites (applyWrites d ws) vs := by
  simp [applyWrites, List.foldl_append]

@[simp] theorem applyWrites_cons (d : DutyCells) (w : SinkWrite) (ws : List SinkWrite) :
    applyWrites d (w :: ws) = applyWrites (d.set w.ch w.value) ws := rfl

/-- The scaling is exact: no 16-bit operation of it wraps (R141). -/
theorem scale_toNat (m : Duty) (v : Byte) : (scale m v).toNat = m.toNat / 255 * v.toNat := by
  have hm := m.isLt
  have hv := v.isLt
  have h1 : m.toNat / 255 ≤ 257 := by omega
  have h2 : m.toNat / 255 * v.toNat ≤ 257 * 255 := Nat.mul_le_mul h1 (by omega)
  have h3 : v.toNat % 2 ^ 16 = v.toNat := Nat.mod_eq_of_lt (by omega)
  have h4 : m.toNat / 255 * v.toNat < 2 ^ 16 := by omega
  simp only [scale, BitVec.toNat_mul, BitVec.toNat_udiv, BitVec.toNat_setWidth, h3]
  exact Nat.mod_eq_of_lt h4

@[simp] theorem halfDuty_toNat (m : Duty) : (halfDuty m).toNat = m.toNat / 2 := by
  simp [halfDuty]

/-- The completion test compares the registers' numbers, without wrap (R112). -/
theorem frameComplete_iff (s : State) : frameComplete s = true ↔ s.pos.toNat = s.len.toNat + 3 := by
  have := s.len.isLt
  simp only [frameComplete, beq_iff_eq, ← BitVec.toNat_inj, BitVec.toNat_add, BitVec.toNat_setWidth, BitVec.toNat_ofNat]
  omega

/-- A scaled write of a payload byte: it cannot fault below the least legal capacity. -/
theorem writeScaled_of_lt {i : Nat} (s : State) (ch : Channel) (h : i < 3) :
    writeScaled ch i s = .next (sinkWrite ch (scale (maxDuty s) (s.cell i)) s) := by
  have := three_le_capacity s
  exact bufRead_of_lt (by omega) _

@[simp] theorem raise_maxDuty (c : Condition) (s : State) : maxDuty (raise c s) = maxDuty s := rfl

@[simp] theorem sinkWrite_maxDuty (ch : Channel) (v : Duty) (s : State) : maxDuty (sinkWrite ch v s) = maxDuty s := rfl

end Sys2Proof.Machine
end

