-- ==== Sys2Proof/Laws/Command.lean ====
section
/-! SUPPORT. What a command does, said once: its sink writes, its condition, and nothing else but the clear. -/

namespace Sys2Proof.Machine

/-- The sink writes of a command at a state. -/
def commandWrites (c : Command) (s : State) : List SinkWrite :=
  match c with
  | .setRgb =>
    if s.cnt.toNat < 3 then []
    else
      [⟨.ch1, scale (maxDuty s) (s.cell 0)⟩, ⟨.ch2, scale (maxDuty s) (s.cell 1)⟩,
        ⟨.ch3, scale (maxDuty s) (s.cell 2)⟩]
  | .setCh1 => if s.cnt.toNat < 1 then [] else [⟨.ch1, scale (maxDuty s) (s.cell 0)⟩]
  | .setCh2 => if s.cnt.toNat < 1 then [] else [⟨.ch2, scale (maxDuty s) (s.cell 0)⟩]
  | .setCh3 => if s.cnt.toNat < 1 then [] else [⟨.ch3, scale (maxDuty s) (s.cell 0)⟩]
  | .auxOn => [⟨.ch4, halfDuty (maxDuty s)⟩]
  | .auxOff => [⟨.ch4, 0#16⟩]
  | .colorNop _ => []
  | .auxNop _ => []

/-- The conditions a command raises at a state. -/
def commandConds (c : Command) (s : State) : List Condition :=
  match c with
  | .setRgb => if s.cnt.toNat < 3 then [.underrun s.app s.cmd s.len s.cnt] else []
  | .setCh1 => if s.cnt.toNat < 1 then [.underrun s.app s.cmd s.len s.cnt] else []
  | .setCh2 => if s.cnt.toNat < 1 then [.underrun s.app s.cmd s.len s.cnt] else []
  | .setCh3 => if s.cnt.toNat < 1 then [.underrun s.app s.cmd s.len s.cnt] else []
  | .auxOn => []
  | .auxOff => []
  | .colorNop cmd => [.unknown s.app cmd]
  | .auxNop cmd => [.unknown s.app cmd]

/-- The state a command leaves. -/
def afterCommand (c : Command) (s : State) : State :=
  { s with
    cnt := 0#8
    duty := applyWrites s.duty (commandWrites c s)
    out :=
      { s.out with
        writes := s.out.writes ++ commandWrites c s
        conds := s.out.conds ++ commandConds c s } }

/-- All that a documented command can do: stop short with UNDERRUN, or run its operation and clear. -/
theorem documented_eq_next {req : Nat} {op : State → Res} {s t : State} :
    documented req op s = .next t ↔
      (s.cnt.toNat < req ∧ t = clear (raise (.underrun s.app s.cmd s.len s.cnt) s)) ∨
      (req ≤ s.cnt.toNat ∧ ∃ u, op s = .next u ∧ t = clear u) := by
  unfold documented
  split <;> rename_i h
  · simp [h, Nat.not_le.2 h, eq_comm]
  · simp [h, Nat.le_of_not_lt h, andThen_eq_next, eq_comm (b := t)]

/-- One sink write, as a list of one. -/
theorem sinkWrite_eq (ch : Channel) (v : Duty) (s : State) :
    sinkWrite ch v s =
      { s with
        duty := applyWrites s.duty [⟨ch, v⟩]
        out := { s.out with writes := s.out.writes ++ [⟨ch, v⟩] } } := rfl

/-- A documented command short of its payload. -/
theorem documented_of_short {req : Nat} (op : State → Res) {s : State} (h : s.cnt.toNat < req) :
    documented req op s = .next (clear (raise (.underrun s.app s.cmd s.len s.cnt) s)) := by
  simp [documented, h]

/-- A documented command with its payload. -/
theorem documented_of_full {req : Nat} (op : State → Res) {s : State} (h : ¬ s.cnt.toNat < req) :
    documented req op s = andThen (op s) fun t => .next (clear t) := by
  simp [documented, h]

/-- A single-channel command: all that it can do. -/
theorem documented_writeScaled (ch : Channel) (s : State) :
    documented 1 (writeScaled ch 0) s =
      if s.cnt.toNat < 1 then .next (clear (raise (.underrun s.app s.cmd s.len s.cnt) s))
      else .next (clear (sinkWrite ch (scale (maxDuty s) (s.cell 0)) s)) := by
  by_cases h : s.cnt.toNat < 1
  · rw [documented_of_short _ h, if_pos h]
  · rw [documented_of_full _ h, if_neg h, writeScaled_of_lt s ch (by omega), andThen_next]

/-- SET_RGB: all that it can do. -/
theorem documented_setRgb (s : State) :
    execSetRgb s =
      if s.cnt.toNat < 3 then .next (clear (raise (.underrun s.app s.cmd s.len s.cnt) s))
      else .next (clear (sinkWrite .ch3 (scale (maxDuty s) (s.cell 2))
        (sinkWrite .ch2 (scale (maxDuty s) (s.cell 1)) (sinkWrite .ch1 (scale (maxDuty s) (s.cell 0)) s)))) := by
  unfold execSetRgb requiredPayload
  by_cases h : s.cnt.toNat < 3
  · rw [documented_of_short _ h, if_pos h]
  · rw [documented_of_full _ h, if_neg h]
    simp [writeScaled_of_lt]

/-- All that performing a command can do: it answers this next state. -/
theorem perform_eq (c : Command) (s : State) : perform c s = .next (afterCommand c s) := by
  cases c with
  | setRgb =>
    refine (documented_setRgb s).trans ?_
    by_cases h : s.cnt.toNat < 3 <;>
      simp [h, afterCommand, commandWrites, commandConds, clear, raise, sinkWrite]
  | setCh1 =>
    refine (documented_writeScaled .ch1 s).trans ?_
    by_cases h : s.cnt.toNat < 1 <;> simp only [h, if_true, if_false, afterCommand, commandWrites, commandConds] <;>
      simp [clear, raise, sinkWrite]
  | setCh2 =>
    refine (documented_writeScaled .ch2 s).trans ?_
    by_cases h : s.cnt.toNat < 1 <;> simp only [h, if_true, if_false, afterCommand, commandWrites, commandConds] <;>
      simp [clear, raise, sinkWrite]
  | setCh3 =>
    refine (documented_writeScaled .ch3 s).trans ?_
    by_cases h : s.cnt.toNat < 1 <;> simp only [h, if_true, if_false, afterCommand, commandWrites, commandConds] <;>
      simp [clear, raise, sinkWrite]
  | auxOn =>
    simp [perform, execAuxOn, documented, requiredPayload, afterCommand, commandWrites, commandConds, sinkWrite, clear]
  | auxOff =>
    simp [perform, execAuxOff, documented, requiredPayload, afterCommand, commandWrites, commandConds, sinkWrite, clear]
  | colorNop cmd => simp [perform, execColorNop, unlisted, afterCommand, commandWrites, commandConds, raise, clear]
  | auxNop cmd => simp [perform, execAuxNop, unlisted, afterCommand, commandWrites, commandConds, raise, clear]

/-- A dispatch is the selected command performed. -/
theorem dispatch_eq (s : State) : dispatch s = .next (afterCommand (decodeCommand s.app s.cmd) s) :=
  perform_eq _ s

/-- A command's instruction runs what the dispatcher performs. -/
theorem exec_instr (c : Command) (s : State) : exec c.instr s = perform c s := by
  cases c <;> rfl

section
variable (c : Command) (s : State)
@[simp] theorem afterCommand_pos : (afterCommand c s).pos = s.pos := rfl
@[simp] theorem afterCommand_app : (afterCommand c s).app = s.app := rfl
@[simp] theorem afterCommand_cmd : (afterCommand c s).cmd = s.cmd := rfl
@[simp] theorem afterCommand_len : (afterCommand c s).len = s.len := rfl
@[simp] theorem afterCommand_cnt : (afterCommand c s).cnt = 0#8 := rfl
@[simp] theorem afterCommand_buf : (afterCommand c s).buf = s.buf := rfl
@[simp] theorem afterCommand_par : (afterCommand c s).par = s.par := rfl
@[simp] theorem afterCommand_duty : (afterCommand c s).duty = applyWrites s.duty (commandWrites c s) := rfl
@[simp] theorem afterCommand_input : (afterCommand c s).input = s.input := rfl
@[simp] theorem afterCommand_draws : (afterCommand c s).draws = s.draws := rfl
@[simp] theorem afterCommand_frame : (afterCommand c s).out.frame = s.out.frame := rfl
@[simp] theorem afterCommand_writes : (afterCommand c s).out.writes = s.out.writes ++ commandWrites c s := rfl
@[simp] theorem afterCommand_conds : (afterCommand c s).out.conds = s.out.conds ++ commandConds c s := rfl
@[simp] theorem afterCommand_capacity : (afterCommand c s).capacity = s.capacity := rfl
@[simp] theorem afterCommand_cell (i : Nat) : (afterCommand c s).cell i = s.cell i := rfl
end

end Sys2Proof.Machine
end

