-- ==== Sys2Proof/Laws/PerInstr.lean ====
section
/-! SUPPORT. A family of facts with one lemma per instruction: the bytes an instruction is encoded to lie in its row of
spec/opcode_table.json, as one number under the row's mask and match, and outside the row's excluded values. -/

namespace Sys2Proof.Laws.EncodedInTableRow

/-- An instruction's encoding as the opcode table numbers it: one byte, or the app byte above the command byte. -/
def tableWord (i : Instr) : Nat := (encode i).foldl (fun w b => 256 * w + b.toNat) 0

/-- The encoding of a well-formed instruction under its rows' match, mask and excluded values. -/
def Statement (i : Instr) : Prop :=
  i.wf = true →
    match i with
    | .feedApp _ => (encode i).length = 1 ∧ (tableWord i = 0xA0 ∨ tableWord i = 0xB0)
    | .feedNoise _ => (encode i).length = 1 ∧ tableWord i ≠ 0xA0 ∧ tableWord i ≠ 0xB0
    | .feedCmd b => (encode i).length = 1 ∧ tableWord i = b.toNat
    | .feedLen b => (encode i).length = 1 ∧ tableWord i = b.toNat
    | .feedPay b => (encode i).length = 1 ∧ tableWord i = b.toNat
    | .feedDrop b => (encode i).length = 1 ∧ tableWord i = b.toNat
    | .setRgb => (encode i).length = 2 ∧ tableWord i = 0xA000
    | .setCh1 => (encode i).length = 2 ∧ tableWord i = 0xA001
    | .setCh2 => (encode i).length = 2 ∧ tableWord i = 0xA002
    | .setCh3 => (encode i).length = 2 ∧ tableWord i = 0xA003
    | .auxOn => (encode i).length = 2 ∧ tableWord i = 0xB001
    | .auxOff => (encode i).length = 2 ∧ tableWord i = 0xB002
    | .colorNop _ => (encode i).length = 2 ∧ tableWord i / 256 = 0xA0 ∧ 0xA003 < tableWord i
    | .auxNop _ =>
      (encode i).length = 2 ∧ tableWord i / 256 = 0xB0 ∧ tableWord i ≠ 0xB001 ∧ tableWord i ≠ 0xB002

theorem feedApp (b : Byte) : Statement (.feedApp b) := by
  intro h
  have h' : b = 0xA0#8 ∨ b = 0xB0#8 := by simpa [Instr.wf] using h
  rcases h' with rfl | rfl <;> simp [encode, tableWord]

theorem feedNoise (b : Byte) : Statement (.feedNoise b) := by
  intro h
  simp only [Instr.wf, Bool.not_eq_true', Bool.or_eq_false_iff, beq_eq_false_iff_ne, ne_eq, ← BitVec.toNat_inj] at h
  simpa [encode, tableWord] using h

theorem feedCmd (b : Byte) : Statement (.feedCmd b) := fun _ => by simp [encode, tableWord]

theorem feedLen (b : Byte) : Statement (.feedLen b) := fun _ => by simp [encode, tableWord]

theorem feedPay (b : Byte) : Statement (.feedPay b) := fun _ => by simp [encode, tableWord]

theorem feedDrop (b : Byte) : Statement (.feedDrop b) := fun _ => by simp [encode, tableWord]

theorem setRgb : Statement .setRgb := fun _ => by simp [encode, tableWord]

theorem setCh1 : Statement .setCh1 := fun _ => by simp [encode, tableWord]

theorem setCh2 : Statement .setCh2 := fun _ => by simp [encode, tableWord]

theorem setCh3 : Statement .setCh3 := fun _ => by simp [encode, tableWord]

theorem auxOn : Statement .auxOn := fun _ => by simp [encode, tableWord]

theorem auxOff : Statement .auxOff := fun _ => by simp [encode, tableWord]

theorem colorNop (cmd : Byte) : Statement (.colorNop cmd) := by
  intro h
  have h' : 4 ≤ cmd.toNat := by simpa [Instr.wf] using h
  have := cmd.isLt
  simp only [encode, tableWord, List.foldl_cons, List.foldl_nil, BitVec.toNat_ofNat]
  exact ⟨rfl, by omega, by omega⟩

theorem auxNop (cmd : Byte) : Statement (.auxNop cmd) := by
  intro h
  have h' : cmd.toNat = 0 ∨ 3 ≤ cmd.toNat := by
    simpa only [Instr.wf, Bool.or_eq_true, decide_eq_true_eq] using h
  have := cmd.isLt
  simp only [encode, tableWord, List.foldl_cons, List.foldl_nil, BitVec.toNat_ofNat]
  exact ⟨rfl, by omega, by omega, by omega⟩

end Sys2Proof.Laws.EncodedInTableRow
end

