-- ==== Sys2Proof/Laws/Ports.lean ====
section
/-! SUPPORT. What the frame port carries: its fields, and the lanes of frame_payload. -/

namespace Sys2Proof.Machine

section
variable (cap n : Nat) (f : Frame)
@[simp] theorem framePort_app : (framePort cap n f).app = f.app := rfl
@[simp] theorem framePort_cmd : (framePort cap n f).cmd = f.cmd := rfl
@[simp] theorem framePort_len : (framePort cap n f).len = f.len := rfl
@[simp] theorem framePort_cnt : (framePort cap n f).cnt = f.cnt := rfl
end

@[simp] theorem portOut_inReady (n : Nat) (s : State) : (portOut n s).inReady = true := rfl

@[simp] theorem portOut_frame (n : Nat) (s : State) :
    (portOut n s).frame = s.out.frame.map (framePort s.capacity n) := rfl

@[simp] theorem portOut_dutyTransfers (n : Nat) (s : State) :
    (portOut n s).dutyTransfers = s.out.writes.map fun w => (channelCode w.ch, w.value) := rfl

/-- A lane that has a payload byte carries it. -/
theorem payloadLane_of_some {n i : Nat} {f : Frame} {b : Byte} (h : f.payload[i]? = some b) :
    payloadLane n f i = b := by simp [payloadLane, h]

/-- Lanes do not reach above their number. -/
theorem packLanes_lt (lane : Nat → Byte) (n : Nat) : packLanes lane n < 2 ^ (8 * n) := by
  induction n with
  | zero => simp [packLanes]
  | succ n ih =>
    have hb : (lane n).toNat ≤ 255 := by have := (lane n).isLt; omega
    have hm : (lane n).toNat * 2 ^ (8 * n) ≤ 255 * 2 ^ (8 * n) := Nat.mul_le_mul_right _ hb
    have hp : 2 ^ (8 * (n + 1)) = 2 ^ (8 * n) * 256 := by rw [Nat.mul_succ, Nat.pow_add]
    rw [packLanes, hp]
    omega

/-- Each lane stands at its own eight bits. -/
theorem packLanes_lane (lane : Nat → Byte) {n i : Nat} (h : i < n) :
    packLanes lane n / 2 ^ (8 * i) % 256 = (lane i).toNat := by
  induction n with
  | zero => omega
  | succ n ih =>
    rw [packLanes]
    have hb : (lane n).toNat < 256 := (lane n).isLt
    rcases Nat.lt_succ_iff_lt_or_eq.1 h with hi | rfl
    · obtain ⟨d, rfl⟩ : ∃ d, n = i + 1 + d := ⟨n - (i + 1), by omega⟩
      have hp : 2 ^ (8 * (i + 1 + d)) = 2 ^ (8 * i) * (256 * 2 ^ (8 * d)) := by
        rw [Nat.mul_add, Nat.mul_succ, Nat.pow_add, Nat.pow_add, Nat.mul_assoc]
      rw [hp, Nat.mul_left_comm, Nat.add_mul_div_left _ _ (by positivity), Nat.mul_left_comm,
        Nat.add_mul_mod_self_left]
      exact ih hi
    · rw [Nat.add_mul_div_right _ _ (by positivity), Nat.div_eq_of_lt (packLanes_lt lane _), Nat.zero_add,
        Nat.mod_eq_of_lt hb]

/-- Lane `i` of the port frame_payload. -/
theorem framePort_payload_lane (n : Nat) (f : Frame) {cap i : Nat} (h : i < cap) :
    (framePort cap n f).payload.extractLsb' (8 * i) 8 = payloadLane n f i := by
  apply BitVec.eq_of_toNat_eq
  simp only [framePort, BitVec.extractLsb'_toNat, BitVec.toNat_ofNat, Nat.mod_eq_of_lt (packLanes_lt _ cap),
    Nat.shiftRight_eq_div_pow]
  exact packLanes_lane _ h

end Sys2Proof.Machine
end

