-- ==== Sys2Proof/Laws/Step.lean ====
section
/-! SUPPORT. What one step can do, said once. -/

namespace Sys2Proof.Machine

/-- The state a completed frame leaves, where `s` is the state the completion test finds complete. -/
def afterFrame (s : State) : State := toIdle (afterCommand (decodeCommand s.app s.cmd) (emitFrame s))

/-- The completion test's two outcomes. -/
theorem completeFrame_eq (s : State) :
    completeFrame s = .next (if s.pos.toNat = s.len.toNat + 3 then afterFrame s else s) := by
  unfold completeFrame
  by_cases h : s.pos.toNat = s.len.toNat + 3
  · simp [(frameComplete_iff s).2 h, h, dispatch_eq, afterFrame]
  · simp [mt (frameComplete_iff s).1 h, h]

/-- The state after FEED_LEN has written, before the completion test. -/
def lenTaken (b : Byte) (s : State) : State := { s with len := b, pos := 3#9 }

/-- The state after FEED_PAY has written, before the completion test. -/
def payTaken (b : Byte) (s : State) : State :=
  { s with buf := Memory.write s.buf s.cnt.toNat b, cnt := s.cnt + 1#8, pos := s.pos + 1#9 }

/-- The state after FEED_DROP has written, before the completion test. -/
def dropTaken (b : Byte) (s : State) : State := { raise (.drop b) s with pos := s.pos + 1#9 }

theorem execFeedLen_eq (b : Byte) (s : State) : execFeedLen b s = completeFrame (lenTaken b s) := rfl

theorem execFeedPay_eq {b : Byte} {s : State} (h : s.cnt.toNat < s.capacity) :
    execFeedPay b s = completeFrame (payTaken b s) := by
  simp [execFeedPay, bufWrite_of_lt h, payTaken]

theorem execFeedDrop_eq (b : Byte) (s : State) : execFeedDrop b s = completeFrame (dropTaken b s) := rfl

/-- All that a step over a byte can do, row by row, from the state `u` the byte is taken in. -/
theorem feed_cases (b : Byte) (u : State) :
    (u.pos.toNat = 0 ∧ (b = 0xA0#8 ∨ b = 0xB0#8) ∧ feedInstr u b = .feedApp b ∧
      exec (feedInstr u b) u = .next { u with app := b, pos := 1#9 }) ∨
    (u.pos.toNat = 0 ∧ b ≠ 0xA0#8 ∧ b ≠ 0xB0#8 ∧ feedInstr u b = .feedNoise b ∧
      exec (feedInstr u b) u = .next (raise (.noise b) u)) ∨
    (u.pos.toNat = 1 ∧ feedInstr u b = .feedCmd b ∧
      exec (feedInstr u b) u = .next { u with cmd := b, pos := 2#9 }) ∨
    (u.pos.toNat = 2 ∧ feedInstr u b = .feedLen b ∧
      exec (feedInstr u b) u = completeFrame (lenTaken b u)) ∨
    (3 ≤ u.pos.toNat ∧ u.cnt.toNat < u.capacity ∧ feedInstr u b = .feedPay b ∧
      exec (feedInstr u b) u = completeFrame (payTaken b u)) ∨
    (3 ≤ u.pos.toNat ∧ u.capacity ≤ u.cnt.toNat ∧ feedInstr u b = .feedDrop b ∧
      exec (feedInstr u b) u = completeFrame (dropTaken b u)) := by
  have hd := decodeFeed_cases u.feedCtx b
  simp only [State.feedCtx] at hd
  rcases hd with ⟨h, hm, e⟩ | ⟨h, hm, e⟩ | ⟨h, e⟩ | ⟨h, e⟩ | ⟨h, hc, e⟩ | ⟨h, hc, e⟩
  · exact .inl ⟨h, (isMarker_iff b).1 hm, e, by rw [feedInstr, State.feedCtx, e]; rfl⟩
  · have hm' : ¬ (b = 0xA0#8 ∨ b = 0xB0#8) := fun hb => by simp [(isMarker_iff b).2 hb] at hm
    rw [not_or] at hm'
    exact .inr (.inl ⟨h, hm'.1, hm'.2, e, by rw [feedInstr, State.feedCtx, e]; rfl⟩)
  · exact .inr (.inr (.inl ⟨h, e, by rw [feedInstr, State.feedCtx, e]; rfl⟩))
  · exact .inr (.inr (.inr (.inl ⟨h, e, by rw [feedInstr, State.feedCtx, e]; rfl⟩)))
  · exact .inr (.inr (.inr (.inr (.inl ⟨h, hc, e, by
      rw [feedInstr, State.feedCtx, e]; exact execFeedPay_eq hc⟩))))
  · exact .inr (.inr (.inr (.inr (.inr ⟨h, hc, e, by rw [feedInstr, State.feedCtx, e]; rfl⟩))))

/-- A byte step, as the state it answers: the four kinds of outcome. `u` is the state the byte is taken in. -/
theorem feed_next (b : Byte) (u : State) : ∃ v, exec (feedInstr u b) u = .next v ∧
    ((u.pos.toNat = 0 ∧ (b = 0xA0#8 ∨ b = 0xB0#8) ∧ v = { u with app := b, pos := 1#9 }) ∨
     (u.pos.toNat = 0 ∧ b ≠ 0xA0#8 ∧ b ≠ 0xB0#8 ∧ v = raise (.noise b) u) ∨
     (u.pos.toNat = 1 ∧ v = { u with cmd := b, pos := 2#9 }) ∨
     ∃ w, ((u.pos.toNat = 2 ∧ w = lenTaken b u) ∨
           (3 ≤ u.pos.toNat ∧ u.cnt.toNat < u.capacity ∧ w = payTaken b u) ∨
           (3 ≤ u.pos.toNat ∧ u.capacity ≤ u.cnt.toNat ∧ w = dropTaken b u)) ∧
          ((w.pos.toNat = w.len.toNat + 3 ∧ v = afterFrame w) ∨
           (w.pos.toNat ≠ w.len.toNat + 3 ∧ v = w))) := by
  have fin : ∀ w : State, ∃ v, completeFrame w = .next v ∧
      ((w.pos.toNat = w.len.toNat + 3 ∧ v = afterFrame w) ∨ (w.pos.toNat ≠ w.len.toNat + 3 ∧ v = w)) := by
    intro w
    refine ⟨_, completeFrame_eq w, ?_⟩
    by_cases h : w.pos.toNat = w.len.toNat + 3 <;> simp [h]
  rcases feed_cases b u with ⟨h, hm, -, e⟩ | ⟨h, h1, h2, -, e⟩ | ⟨h, -, e⟩ | ⟨h, -, e⟩ | ⟨h, hc, -, e⟩ | ⟨h, hc, -, e⟩
  · exact ⟨_, e, .inl ⟨h, hm, rfl⟩⟩
  · exact ⟨_, e, .inr (.inl ⟨h, h1, h2, rfl⟩)⟩
  · exact ⟨_, e, .inr (.inr (.inl ⟨h, rfl⟩))⟩
  · obtain ⟨v, hv, hw⟩ := fin (lenTaken b u)
    exact ⟨v, e.trans hv, .inr (.inr (.inr ⟨_, .inl ⟨h, rfl⟩, hw⟩))⟩
  · obtain ⟨v, hv, hw⟩ := fin (payTaken b u)
    exact ⟨v, e.trans hv, .inr (.inr (.inr ⟨_, .inr (.inl ⟨h, hc, rfl⟩), hw⟩))⟩
  · obtain ⟨v, hv, hw⟩ := fin (dropTaken b u)
    exact ⟨v, e.trans hv, .inr (.inr (.inr ⟨_, .inr (.inr ⟨h, hc, rfl⟩), hw⟩))⟩

/-- The four kinds of step, by what the source presents. -/
theorem step_nil {s : State} (h : s.input = []) : step s = .next s := by simp [step, h]

theorem step_byte {s : State} {b : Byte} {rest : List InputEvent} (h : s.input = .byte b :: rest) :
    step s = exec (feedInstr s b) (takeEvent s rest) := by simp [step, h]

theorem step_readError {s : State} {rest : List InputEvent} (h : s.input = .readError :: rest) :
    step s = .next (sourceStutter (takeEvent s rest)) := by simp [step, h]

theorem step_reset {s : State} {rest : List InputEvent} (h : s.input = .reset :: rest) :
    step s = .next (resetBlock (takeEvent s rest)) := by simp [step, h]

@[simp] theorem feedInstr_takeEvent (s : State) (rest : List InputEvent) (b : Byte) :
    feedInstr (takeEvent s rest) b = feedInstr s b := rfl

/-- The source is empty or presents an event. -/
theorem input_cases (s : State) : s.input = [] ∨ ∃ e rest, s.input = e :: rest := by
  cases s.input <;> simp

/-- All that a byte step can do, from its next state: the header bytes and noise, or a byte taken that leaves the
frame open or completes it. -/
theorem byte_step_cases {s t : State} {b : Byte} {rest : List InputEvent} (hi : s.input = .byte b :: rest)
    (hs : step s = .next t) :
    (s.pos.toNat = 0 ∧ (b = 0xA0#8 ∨ b = 0xB0#8) ∧ t = { takeEvent s rest with app := b, pos := 1#9 }) ∨
    (s.pos.toNat = 0 ∧ b ≠ 0xA0#8 ∧ b ≠ 0xB0#8 ∧ t = raise (.noise b) (takeEvent s rest)) ∨
    (s.pos.toNat = 1 ∧ t = { takeEvent s rest with cmd := b, pos := 2#9 }) ∨
    ∃ w, ((s.pos.toNat = 2 ∧ w = lenTaken b (takeEvent s rest)) ∨
          (3 ≤ s.pos.toNat ∧ s.cnt.toNat < s.capacity ∧ w = payTaken b (takeEvent s rest)) ∨
          (3 ≤ s.pos.toNat ∧ s.capacity ≤ s.cnt.toNat ∧ w = dropTaken b (takeEvent s rest))) ∧
         ((w.pos.toNat = w.len.toNat + 3 ∧ t = afterFrame w) ∨
          (w.pos.toNat ≠ w.len.toNat + 3 ∧ t = w)) := by
  rw [step_byte hi] at hs
  obtain ⟨v, hv, hc⟩ := feed_next b (takeEvent s rest)
  rw [feedInstr_takeEvent] at hv
  rw [hv] at hs
  cases hs
  exact hc

section
variable (s : State)
@[simp] theorem afterFrame_pos : (afterFrame s).pos = 0#9 := rfl
@[simp] theorem afterFrame_app : (afterFrame s).app = s.app := rfl
@[simp] theorem afterFrame_cmd : (afterFrame s).cmd = s.cmd := rfl
@[simp] theorem afterFrame_len : (afterFrame s).len = s.len := rfl
@[simp] theorem afterFrame_cnt : (afterFrame s).cnt = 0#8 := rfl
@[simp] theorem afterFrame_buf : (afterFrame s).buf = s.buf := rfl
@[simp] theorem afterFrame_par : (afterFrame s).par = s.par := rfl
@[simp] theorem afterFrame_input : (afterFrame s).input = s.input := rfl
@[simp] theorem afterFrame_draws : (afterFrame s).draws = s.draws := rfl
@[simp] theorem afterFrame_capacity : (afterFrame s).capacity = s.capacity := rfl
@[simp] theorem afterFrame_cell (i : Nat) : (afterFrame s).cell i = s.cell i := rfl
@[simp] theorem afterFrame_duty :
    (afterFrame s).duty = applyWrites s.duty (commandWrites (decodeCommand s.app s.cmd) s) := rfl
@[simp] theorem afterFrame_frame : (afterFrame s).out.frame = some (currentFrame s) := rfl
@[simp] theorem afterFrame_writes :
    (afterFrame s).out.writes = s.out.writes ++ commandWrites (decodeCommand s.app s.cmd) s := rfl
@[simp] theorem afterFrame_conds :
    (afterFrame s).out.conds = s.out.conds ++ commandConds (decodeCommand s.app s.cmd) s := rfl
end

/-- A byte step that shows a frame completed it. -/
theorem byte_step_frame {s t : State} {b : Byte} {rest : List InputEvent} {f : Frame} (hi : s.input = .byte b :: rest)
    (hs : step s = .next t) (hf : t.out.frame = some f) :
    ∃ w, ((s.pos.toNat = 2 ∧ w = lenTaken b (takeEvent s rest)) ∨
          (3 ≤ s.pos.toNat ∧ s.cnt.toNat < s.capacity ∧ w = payTaken b (takeEvent s rest)) ∨
          (3 ≤ s.pos.toNat ∧ s.capacity ≤ s.cnt.toNat ∧ w = dropTaken b (takeEvent s rest))) ∧
         w.pos.toNat = w.len.toNat + 3 ∧ t = afterFrame w ∧ f = currentFrame w := by
  rcases byte_step_cases hi hs with ⟨_, _, rfl⟩ | ⟨_, _, _, rfl⟩ | ⟨_, rfl⟩ | ⟨w, hw, ⟨he, rfl⟩ | ⟨_, rfl⟩⟩
  · simp at hf
  · simp at hf
  · simp at hf
  · exact ⟨w, hw, he, rfl, by simpa using hf.symm⟩
  · rcases hw with ⟨_, rfl⟩ | ⟨_, _, rfl⟩ | ⟨_, _, rfl⟩ <;> simp [lenTaken, payTaken, dropTaken] at hf

end Sys2Proof.Machine
end

