-- ==== Sys2Proof/Laws/Run.lean ====
section
/-! SUPPORT. Runs: one step at a time, and the two inductions over a run. -/

namespace Sys2Proof.Machine

@[simp] theorem run_zero (s : State) : runSteps 0 s = .next s := rfl

/-- The host's run, one step unfolded. -/
theorem host_run_succ (M : Host.Core) (k : Nat) (s : M.State) :
    M.run (k + 1) s =
      match M.step s with
      | .next t => M.run k t
      | .fault r => .fault r
      | .refused r => .refused r := rfl

/-- A run goes on from its first step's outcome. -/
theorem run_step (k : Nat) (s : State) : runSteps (k + 1) s = andThen (step s) (runSteps k) := by
  refine (host_run_succ core k s).trans ?_
  have hc : core.step s = step s := rfl
  generalize core.step s = x at hc
  subst hc
  cases step s <;> rfl

/-- A run goes on from its first step's state. -/
theorem run_succ {s t : State} (h : step s = .next t) (k : Nat) : runSteps (k + 1) s = runSteps k t := by
  rw [run_step, h, andThen_next]

/-- A run of `j + k` steps is a run of `j` and then one of `k`. -/
theorem run_add {s t : State} {j : Nat} (h : runSteps j s = .next t) (k : Nat) :
    runSteps (j + k) s = runSteps k t := by
  induction j generalizing s with
  | zero =>
    cases h
    rw [Nat.zero_add]
  | succ j ih =>
    rw [run_step, andThen_eq_next] at h
    obtain ⟨u, hu, hr⟩ := h
    rw [Nat.succ_add, run_succ hu]
    exact ih hr

/-- What one step provides and keeps, every run provides and keeps. -/
theorem run_invariant {P : State → Prop} (hstep : ∀ s, P s → ∃ t, step s = .next t ∧ P t) (k : Nat) {s : State}
    (h : P s) : ∃ t : State, runSteps k s = .next t ∧ P t := by
  induction k generalizing s with
  | zero => exact ⟨s, rfl, h⟩
  | succ k ih =>
    obtain ⟨t, ht, hp⟩ := hstep s h
    obtain ⟨u, hu, hq⟩ := ih hp
    exact ⟨u, (run_succ ht k).trans hu, hq⟩

/-- Two machines that keep a relation at each step keep it along every run. -/
theorem run_relation {R : State → State → Prop}
    (hstep : ∀ s s', R s s' → ∃ t t', step s = .next t ∧ step s' = .next t' ∧ R t t') (k : Nat) {s s' : State}
    (h : R s s') : ∃ t t' : State, runSteps k s = .next t ∧ runSteps k s' = .next t' ∧ R t t' := by
  induction k generalizing s s' with
  | zero => exact ⟨s, s', rfl, rfl, h⟩
  | succ k ih =>
    obtain ⟨t, t', ht, ht', hr⟩ := hstep s s' h
    obtain ⟨u, u', hu, hu', hq⟩ := ih hr
    exact ⟨u, u', (run_succ ht k).trans hu, (run_succ ht' k).trans hu', hq⟩

end Sys2Proof.Machine
end

