-- ==== Sys2Proof/Tests/Slice0.lean ====
section
/-! SUPPORT. The model's own tests: ill-formed instructions refused, written-out words decoded, the spec's vectors of
spec/95_test_vectors.md one step at a time, and for each statement with hypotheses a concrete case that meets them. -/

namespace Sys2Proof.Tests

open Sys2Proof Sys2Proof.Machine

/-! ### Helpers -/

/-- The outcome's next state. -/
def nextOf : Res → Option State
  | .next s => some s
  | _ => none

/-- A small state: PAYLOAD_CAP 8, MAX_DUTY 65535, the buffer holding `bytes` from cell 0. -/
def st (pos : PosWord) (app cmd len cnt : Byte) (bytes : List Byte) (input : List InputEvent) : State where
  pos := pos
  app := app
  cmd := cmd
  len := len
  cnt := cnt
  buf := bytes.zipIdx.map fun p => (p.2, p.1)
  par := { cap := Config.defaultCap, maxDuty := 65535#16 }
  duty := { ch1 := 1#16, ch2 := 2#16, ch3 := 3#16, ch4 := 4#16 }
  input := input
  out := {}
  draws := 0

/-- The same under another MAX_DUTY. -/
def withMax (m : Duty) (s : State) : State := { s with par := { s.par with maxDuty := m } }

/-- What a test looks at: position, count, the numbers of the writes, the conditions, the emitted payload. -/
structure Seen where
  pos : Nat
  cnt : Nat
  writes : List (Channel × Nat)
  conds : List Condition
  payload : Option (List Byte)
deriving DecidableEq, Repr

def seen (r : Res) : Option Seen :=
  (nextOf r).map fun s =>
    ⟨s.pos.toNat, s.cnt.toNat, writeNumbers s.out.writes, s.out.conds, s.out.frame.map (·.payload)⟩

/-- The header registers of the next state. -/
def header (r : Res) : Option (Nat × Nat × Nat × Nat) :=
  (nextOf r).map fun s => (s.pos.toNat, s.app.toNat, s.cmd.toNat, s.len.toNat)

/-! ### Well-formedness: each check refuses an ill-formed term -/

theorem test_wf_feedApp : (Instr.feedApp 0xA1#8).wf = false := by decide
theorem test_wf_feedNoise_color : (Instr.feedNoise 0xA0#8).wf = false := by decide
theorem test_wf_feedNoise_aux : (Instr.feedNoise 0xB0#8).wf = false := by decide
theorem test_wf_colorNop : (Instr.colorNop 0x03#8).wf = false := by decide
theorem test_wf_auxNop : (Instr.auxNop 0x01#8).wf = false ∧ (Instr.auxNop 0x02#8).wf = false := by decide
theorem test_capacity_legal : 3 ≤ Config.defaultCap.cells ∧ Config.defaultCap.cells ≤ 255 := by decide

/-! ### Decoding: words written out from the tables of R76 and R77 -/

/-- An answer of the decoder, errors dropped. -/
def read (pos : PosWord) (cnt : Byte) (bytes : List Byte) : Option Instr :=
  match decode { pos := pos, cnt := cnt, cap := 8 } bytes with
  | .ok i => some i
  | .error _ => none

theorem test_decode_feedApp : read 0#9 0#8 [0b10100000#8] = some (.feedApp 0xA0#8) := by decide
theorem test_decode_feedApp_aux : read 0#9 0#8 [0b10110000#8] = some (.feedApp 0xB0#8) := by decide
theorem test_decode_feedNoise : read 0#9 0#8 [0b10100001#8] = some (.feedNoise 0xA1#8) := by decide
theorem test_decode_feedCmd : read 1#9 0#8 [0b10100000#8] = some (.feedCmd 0xA0#8) := by decide
theorem test_decode_feedLen : read 2#9 0#8 [0b11001000#8] = some (.feedLen 0xC8#8) := by decide
theorem test_decode_feedPay : read 3#9 7#8 [0b10110000#8] = some (.feedPay 0xB0#8) := by decide
theorem test_decode_feedDrop : read 11#9 8#8 [0b01010101#8] = some (.feedDrop 0x55#8) := by decide
theorem test_decode_setRgb : read 0#9 0#8 [0b10100000#8, 0b00000000#8] = some .setRgb := by decide
theorem test_decode_setCh1 : read 0#9 0#8 [0b10100000#8, 0b00000001#8] = some .setCh1 := by decide
theorem test_decode_setCh2 : read 0#9 0#8 [0b10100000#8, 0b00000010#8] = some .setCh2 := by decide
theorem test_decode_setCh3 : read 0#9 0#8 [0b10100000#8, 0b00000011#8] = some .setCh3 := by decide
theorem test_decode_auxOn : read 0#9 0#8 [0b10110000#8, 0b00000001#8] = some .auxOn := by decide
theorem test_decode_auxOff : read 0#9 0#8 [0b10110000#8, 0b00000010#8] = some .auxOff := by decide
theorem test_decode_colorNop : read 0#9 0#8 [0b10100000#8, 0b00000100#8] = some (.colorNop 0x04#8) := by decide
theorem test_decode_auxNop : read 0#9 0#8 [0b10110000#8, 0b00000000#8] = some (.auxNop 0x00#8) := by decide
theorem test_decode_rejects : read 0#9 0#8 [0b11000000#8, 0b00000000#8] = none ∧ read 0#9 0#8 [] = none := by decide
theorem test_table_word_bytes : decodeTableWord 16 0xB0FF = some (.auxNop 0xFF#8) ∧ decodeTableWord 24 0 = none := by decide

/-- R82: the assembler's bytes of the source's round-trip example V2. -/
theorem test_asm_bytes :
    (AsmForm.setRgb 10#8 20#8 30#8).bytes = [0xA0#8, 0x00#8, 0x03#8, 0x0A#8, 0x14#8, 0x1E#8] ∧
    AsmForm.auxOn.bytes = [0xB0#8, 0x01#8, 0x00#8] ∧ (AsmForm.frame 1#8 2#8 9#8 [3#8]).bytes = [1#8, 2#8, 9#8, 3#8] ∧
    (AsmForm.raw [7#8]).bytes = [7#8] := by decide

/-! ### A table word placed where the next step fetches -/

theorem test_place_byte : header (step (State.reset.withFetchWord 8 0xB0)) = some (1, 0xB0, 0, 0) := by decide
theorem test_place_header :
    (nextOf (step (State.reset.withFetchWord 16 0xA0FF))).map (fun s => (s.pos.toNat, s.out.conds)) =
      some (0, [Condition.unknown 0xA0#8 0xFF#8]) := by decide
theorem test_place_noise :
    (nextOf (step (State.reset.withFetchWord 16 0xC000))).map (fun s => (s.pos.toNat, s.out.conds)) =
      some (0, [Condition.noise 0xC0#8]) := by decide

/-! ### The assembler, vectors FA1 to FA21 -/

theorem test_fa1 : header (step (st 0#9 0#8 0#8 0#8 0#8 [] [.byte 0xA0#8])) = some (1, 0xA0, 0, 0) := by decide
theorem test_fa5 :
    seen (step (st 0#9 0#8 0#8 0#8 0#8 [] [.byte 0xB1#8])) = some ⟨0, 0, [], [.noise 0xB1#8], none⟩ := by decide
theorem test_fa7 : header (step (st 1#9 0xA0#8 0#8 0#8 0#8 [] [.byte 0xA0#8])) = some (2, 0xA0, 0xA0, 0) := by decide
theorem test_fa9 : header (step (st 2#9 0xA0#8 0#8 7#8 0#8 [] [.byte 3#8])) = some (3, 0xA0, 0, 3) := by decide
theorem test_fa10 :
    seen (step (st 2#9 0xB0#8 2#8 9#8 0#8 [] [.byte 0#8])) = some ⟨0, 0, [(.ch4, 0)], [], some []⟩ := by decide
theorem test_fa13 :
    seen (step (st 5#9 0xA0#8 0#8 3#8 2#8 [0x0A#8, 0x14#8] [.byte 0x1E#8])) =
      some ⟨0, 0, [(.ch1, 2570), (.ch2, 5140), (.ch3, 7710)], [], some [0x0A#8, 0x14#8, 0x1E#8]⟩ := by decide
theorem test_fa14 :
    (nextOf (step (st 10#9 0xA0#8 0#8 10#8 7#8 [1#8, 2#8, 3#8, 4#8, 5#8, 6#8, 7#8] [.byte 8#8]))).map
      (fun s => (s.pos.toNat, s.cnt.toNat, s.cell 7, s.cell 0)) = some (11, 8, 8#8, 1#8) := by decide
theorem test_fa15 :
    seen (step (st 11#9 0xA0#8 0#8 10#8 8#8 [1#8, 2#8, 3#8, 4#8, 5#8, 6#8, 7#8, 8#8] [.byte 9#8])) =
      some ⟨12, 8, [], [.drop 9#8], none⟩ := by decide
theorem test_fa17 :
    (nextOf (step (st 257#9 0xA0#8 0xFF#8 0xFF#8 8#8 [1#8, 2#8, 3#8, 4#8, 5#8, 6#8, 7#8, 8#8] [.byte 0#8]))).map
      (fun s => (s.pos.toNat, s.cnt.toNat, s.out.conds)) =
      some (0, 0, [.drop 0#8, .unknown 0xA0#8 0xFF#8]) := by decide
theorem test_fa20 :
    header (step (st 1#9 0xA0#8 5#8 6#8 0#8 [] [.reset, .byte 7#8])) = some (0, 0, 0, 0) := by decide
theorem test_fa21 :
    seen (step (st 4#9 0xA0#8 0#8 3#8 1#8 [9#8] [.readError])) = some ⟨4, 1, [], [.srcError], none⟩ := by decide
theorem test_wait : nextOf (step (st 4#9 0xA0#8 0#8 3#8 1#8 [9#8] [])) = some (st 4#9 0xA0#8 0#8 3#8 1#8 [9#8] []) := by
  decide

/-! ### The dispatcher, vectors CD1 to CD20: the command's own meaning on the stored payload -/

theorem test_cd2 :
    seen (exec .setRgb (st 6#9 0xA0#8 0#8 3#8 3#8 [0x00#8, 0x80#8, 0xFF#8] [])) =
      some ⟨6, 0, [(.ch1, 0), (.ch2, 32896), (.ch3, 65535)], [], none⟩ := by decide
theorem test_cd4 :
    seen (exec .setRgb (st 5#9 0xA0#8 0#8 2#8 2#8 [1#8, 2#8] [])) =
      some ⟨5, 0, [], [.underrun 0xA0#8 0#8 2#8 2#8], none⟩ := by decide
theorem test_cd6 :
    seen (exec .setCh1 (withMax 1000#16 (st 4#9 0xA0#8 1#8 1#8 1#8 [0xFF#8] []))) =
      some ⟨4, 0, [(.ch1, 765)], [], none⟩ := by decide
theorem test_cd7 :
    seen (exec .setCh1 (st 3#9 0xA0#8 1#8 0#8 0#8 [] [])) = some ⟨3, 0, [], [.underrun 0xA0#8 1#8 0#8 0#8], none⟩ := by
  decide
theorem test_cd9 :
    seen (exec .setCh2 (st 5#9 0xA0#8 2#8 2#8 2#8 [0x01#8, 0xFF#8] [])) = some ⟨5, 0, [(.ch2, 257)], [], none⟩ := by decide
theorem test_cd10 :
    seen (exec .setCh3 (withMax 254#16 (st 4#9 0xA0#8 3#8 1#8 1#8 [0xFF#8] []))) =
      some ⟨4, 0, [(.ch3, 0)], [], none⟩ := by decide
theorem test_cd11 :
    seen (exec .setCh3 (withMax 1000#16 (st 4#9 0xA0#8 3#8 1#8 1#8 [0x7F#8] []))) =
      some ⟨4, 0, [(.ch3, 381)], [], none⟩ := by decide
theorem test_cd13 :
    seen (exec .auxOn (withMax 1001#16 (st 3#9 0xB0#8 1#8 0#8 0#8 [] []))) = some ⟨3, 0, [(.ch4, 500)], [], none⟩ := by decide
theorem test_cd15 :
    (nextOf (exec .auxOff (st 3#9 0xB0#8 2#8 0#8 0#8 [] []))).map (fun s => (s.duty.ch3.toNat, s.duty.ch4.toNat)) =
      some (3, 0) := by decide
theorem test_cd17 :
    seen (exec (.colorNop 0xFF#8) (st 3#9 0xA0#8 0xFF#8 0#8 0#8 [] [])) =
      some ⟨3, 0, [], [.unknown 0xA0#8 0xFF#8], none⟩ := by decide
theorem test_cd18 :
    seen (exec (.auxNop 0#8) (st 6#9 0xB0#8 0#8 3#8 3#8 [1#8, 2#8, 3#8] [])) =
      some ⟨6, 0, [], [.unknown 0xB0#8 0#8], none⟩ := by decide

/-- The scaling table of section 3.1, at three maxima. -/
theorem test_scale_table :
    (scale 7200#16 128#8).toNat = 3584 ∧ (scale 3199#16 10#8).toNat = 120 ∧ (scale 255#16 255#8).toNat = 255 ∧
    (halfDuty 4095#16).toNat = 2047 ∧ (halfDuty 1#16).toNat = 0 := by decide

/-- R180's codes. -/
theorem test_condition_codes :
    [Condition.noise 0#8, .drop 0#8, .underrun 0#8 0#8 0#8 0#8, .unknown 0#8 0#8, .srcError].map conditionCode =
      [1, 2, 3, 4, 5] := by decide

/-- The ports (R69): a reset wins over a byte that is there too. -/
theorem test_ports_reset_wins :
    seen (portStep { rst := true, inValid := true, inErr := false, inByte := 0xA0#8, maxDuty := 9#16 }
      (st 2#9 0xA0#8 1#8 0#8 0#8 [] [])) = some ⟨0, 0, [], [], none⟩ := by decide

/-- The ports (R69): the byte that completes AUX_ON puts channel code 3 and half of max_duty on the sink port. -/
theorem test_ports_aux_on :
    (nextOf (portStep { rst := false, inValid := true, inErr := false, inByte := 0#8, maxDuty := 9#16 }
      (st 2#9 0xB0#8 1#8 0#8 0#8 [] []))).map (fun s => (portOut 0 s).dutyTransfers) = some [(3#2, 4#16)] := by decide

/-- The ports (R69) at PAYLOAD_CAP 3: CD1's frame on frame_payload[23:0], byte 0 lowest (notes/assumptions/18.md). -/
theorem test_ports_frame_payload :
    (nextOf (portStep { rst := false, inValid := true, inErr := false, inByte := 0x1E#8, maxDuty := 65535#16 }
      { st 5#9 0xA0#8 0#8 3#8 2#8 [0x0A#8, 0x14#8] [] with par := { cap := ⟨3, by decide, by decide⟩, maxDuty := 0#16 } })).map
        (fun s => (portOut 0 s).frame.map fun q => (q.len.toNat, q.cnt.toNat, q.payload.toNat)) =
      some (some (3, 3, 0x1E140A)) := by decide

/-! ### Witnesses: for each statement with hypotheses, a concrete case that meets them, per clause and at the edges -/

/-- A legal idle state. -/
def idle (input : List InputEvent) : State := st 0#9 0#8 0#8 0#8 0#8 [] input

/-- A legal state whose next byte completes a frame: LEN 0 after the header `app`, `cmd`. -/
def lastLen (app cmd : Byte) : State := st 2#9 app cmd 7#8 0#8 [] [.byte 0#8]

/-- A legal state whose next byte is the second and last payload byte. -/
def lastPay (cmd : Byte) : State := st 4#9 0xA0#8 cmd 2#8 1#8 [5#8] [.byte 6#8]

/-- A legal state with the buffer full, whose next byte is dropped and ends the frame. -/
def lastDrop (app cmd : Byte) : State :=
  st 11#9 app cmd 9#8 8#8 [1#8, 2#8, 3#8, 4#8, 5#8, 6#8, 7#8, 8#8] [.byte 9#8]

theorem witness_idle_is_legal : (idle []).Inv ∧ (idle []).BufOk := by decide
theorem witness_lastLen_is_legal : (lastLen 0xA0#8 0#8).Inv := by decide
theorem witness_lastPay_is_legal : (lastPay 0#8).Inv ∧ (lastPay 0#8).BufOk := by decide
theorem witness_lastDrop_is_legal : (lastDrop 0xB0#8 1#8).Inv ∧ (lastDrop 0xB0#8 1#8).BufOk := by decide

theorem witness_FeedAppStoresTheAppByte :
    (idle []).pos = 0#9 ∧ (idle []).Inv ∧ (0xA0#8 = 0xA0#8 ∨ 0xA0#8 = 0xB0#8) ∧ (0xB0#8 = 0xA0#8 ∨ 0xB0#8 = 0xB0#8) := by
  decide

theorem witness_FeedNoiseLeavesTheStateUnchanged :
    (idle []).pos = 0#9 ∧ 0xA1#8 ≠ 0xA0#8 ∧ 0xA1#8 ≠ 0xB0#8 := by decide

theorem witness_NoiseRunsLeaveTheBlockIdle :
    (idle [.byte 0#8, .byte 0xFF#8, .reset]).pos = 0#9 ∧ (∀ b ∈ [0#8, 0xFF#8], b ≠ 0xA0#8 ∧ b ≠ 0xB0#8) ∧
    (idle [.byte 0#8, .byte 0xFF#8, .reset]).input = [0#8, 0xFF#8].map .byte ++ [.reset] ∧ 1 < [0#8, 0xFF#8].length := by
  decide

theorem witness_FeedCmdStoresTheCommandByte : (st 1#9 0xA0#8 0#8 0#8 0#8 [] []).pos = 1#9 := by decide

theorem witness_FeedLenStoresTheLengthAndTests :
    (lastLen 0xA0#8 0#8).pos = 2#9 ∧ (lastLen 0xA0#8 0#8).Inv ∧ 0x01#8 ≠ 0x00#8 ∧ 0x00#8 = 0x00#8 := by decide

/-- The frame goes on (cnt 7 of 8, length 10) and the frame ends (position 4, length 2). -/
theorem witness_FeedPayAppendsTheByte :
    (st 10#9 0xA0#8 0#8 10#8 7#8 [] []).cnt.toNat < (st 10#9 0xA0#8 0#8 10#8 7#8 [] []).capacity ∧
    3 ≤ (st 10#9 0xA0#8 0#8 10#8 7#8 [] []).pos.toNat ∧
    ((st 10#9 0xA0#8 0#8 10#8 7#8 [] []).pos + 1#9).toNat ≠ (st 10#9 0xA0#8 0#8 10#8 7#8 [] []).len.toNat + 3 ∧
    (lastPay 0#8).cnt.toNat < (lastPay 0#8).capacity ∧
    ((lastPay 0#8).pos + 1#9).toNat = (lastPay 0#8).len.toNat + 3 := by decide

theorem witness_FeedPayWithoutAFreeCellStops :
    (lastDrop 0xA0#8 0#8).capacity ≤ (lastDrop 0xA0#8 0#8).cnt.toNat := by decide

/-- The frame goes on (length 10) and the frame ends (length 9). -/
theorem witness_FeedDropLosesTheByte :
    3 ≤ (lastDrop 0xA0#8 0#8).pos.toNat ∧ (lastDrop 0xA0#8 0#8).cnt.toNat = (lastDrop 0xA0#8 0#8).capacity ∧
    ((lastDrop 0xA0#8 0#8).pos + 1#9).toNat = (lastDrop 0xA0#8 0#8).len.toNat + 3 ∧
    ((st 11#9 0xA0#8 0#8 10#8 8#8 [] []).pos + 1#9).toNat ≠ (st 11#9 0xA0#8 0#8 10#8 8#8 [] []).len.toNat + 3 := by
  decide

theorem witness_SetRgbWritesThreeScaledChannels :
    3 ≤ (st 6#9 0xA0#8 0#8 3#8 3#8 [1#8, 2#8, 3#8] []).cnt.toNat ∧
    (st 5#9 0xA0#8 0#8 2#8 2#8 [1#8, 2#8] []).cnt.toNat < 3 := by decide

theorem witness_SetChannelWritesOneScaledChannel :
    1 ≤ (st 4#9 0xA0#8 1#8 1#8 1#8 [1#8] []).cnt.toNat ∧ (st 3#9 0xA0#8 1#8 0#8 0#8 [] []).cnt.toNat < 1 := by decide

theorem witness_AuxOnWritesHalfTheMaximum :
    (withMax 1000#16 (idle [])).par.maxDuty.toNat % 2 = 0 ∧ (idle []).par.maxDuty.toNat % 2 = 1 := by decide

theorem witness_UnlistedCommandsAreNoOps_color :
    let s := lastLen 0xA0#8 4#8
    s.input = .byte 0#8 :: [] ∧ s.cmd = 4#8 ∧ 2 ≤ s.pos.toNat ∧
    s.pos.toNat + 1 = (if s.pos.toNat = 2 then (0#8 : Byte).toNat else s.len.toNat) + 3 ∧
    s.app = 0xA0#8 ∧ 4 ≤ (4#8 : Byte).toNat := by decide

theorem witness_UnlistedCommandsAreNoOps_aux :
    let s := lastDrop 0xB0#8 3#8
    s.input = .byte 9#8 :: [] ∧ s.cmd = 3#8 ∧ 2 ≤ s.pos.toNat ∧
    s.pos.toNat + 1 = (if s.pos.toNat = 2 then (9#8 : Byte).toNat else s.len.toNat) + 3 ∧
    s.app = 0xB0#8 ∧ ((3#8 : Byte).toNat = 0 ∨ 3 ≤ (3#8 : Byte).toNat) ∧
    ((0#8 : Byte).toNat = 0 ∨ 3 ≤ (0#8 : Byte).toNat) := by decide

/-- SET_RGB one byte short, and with SET_CH1 to SET_CH3 at length 0. -/
theorem witness_ShortPayloadWritesNothing_rgb : ∃ t f, (lastPay 0#8).Inv ∧ (lastPay 0#8).input = .byte 6#8 :: [] ∧
    step (lastPay 0#8) = .next t ∧ t.out.frame = some f ∧ f.app = 0xA0#8 ∧ f.cmd = 0#8 ∧ f.len.toNat < 3 :=
  ⟨_, _, by decide, rfl, rfl, rfl, rfl, rfl, by decide⟩

theorem witness_ShortPayloadWritesNothing_channel : ∃ t f, (lastLen 0xA0#8 1#8).Inv ∧
    step (lastLen 0xA0#8 1#8) = .next t ∧ t.out.frame = some f ∧ f.app = 0xA0#8 ∧ f.cmd = 1#8 ∧ f.len.toNat < 1 :=
  ⟨_, _, by decide, rfl, rfl, rfl, rfl, by decide⟩

theorem witness_EveryCompletedFrameDrivesTheSink : ∃ t f, (lastPay 2#8).input = .byte 6#8 :: [] ∧
    step (lastPay 2#8) = .next t ∧ t.out.frame = some f ∧ tableWrites 65535 f = [(.ch2, 1285)] :=
  ⟨_, _, rfl, rfl, rfl, by decide⟩

/-- A byte that completes a frame, and one that does not. -/
theorem witness_PayloadIsClearedByDispatchOnly : (∃ t f, step (lastPay 2#8) = .next t ∧ t.out.frame = some f) ∧
    ∃ t, step (idle [.byte 0xA0#8]) = .next t ∧ t.out.frame = none :=
  ⟨⟨_, _, rfl, rfl⟩, _, rfl, rfl⟩

/-- Two states that agree on SET_CH1's frame and differ in position and in a cell it does not read. -/
theorem witness_DispatcherReadsOnlyItsFrame :
    let s := st 5#9 0xA0#8 1#8 2#8 2#8 [7#8, 8#8] []
    let s' := st 9#9 0xA0#8 1#8 2#8 2#8 [7#8, 9#8] []
    s'.app = s.app ∧ s'.cmd = s.cmd ∧ s'.cnt = s.cnt ∧ s'.par.maxDuty = s.par.maxDuty ∧ s'.len = s.len ∧
      (∀ i, i < requiredPayload .setCh1 → s'.cell i = s.cell i) ∧ s' ≠ s := by decide

theorem witness_AStepWritesForOneCommandAtMost : ∃ t, step (st 5#9 0xA0#8 0#8 3#8 2#8 [1#8, 2#8] [.byte 3#8]) = .next t ∧
    t.out.writes.map SinkWrite.ch = [Channel.ch1, .ch2, .ch3] := ⟨_, rfl, by decide⟩

theorem witness_ScalingLaws : (3#8 : Byte).toNat ≤ (3#8 : Byte).toNat ∧ (254#16 : Duty).toNat < 255 := by decide

theorem witness_CommandMapDecodes : (0xA0#8 = 0xA0#8 ∨ 0xA0#8 = 0xB0#8) ∧ (0xB0#8 = 0xA0#8 ∨ 0xB0#8 = 0xB0#8) := by decide

theorem witness_DecodeOfEncodeIsTheInstruction :
    (Instr.feedDrop 0xA0#8).wf = true ∧ selectedIn ⟨3#9, 8#8, 8⟩ (.feedDrop 0xA0#8) = true ∧
    (Instr.colorNop 4#8).wf = true ∧ selectedIn ⟨0#9, 0#8, 8⟩ (.colorNop 4#8) = true := by decide

theorem witness_EncodeOfDecodeIsTheBytes :
    read 3#9 7#8 [1#8] = some (.feedPay 1#8) ∧ read 3#9 7#8 [0xB0#8, 2#8] = some .auxOff := by decide

theorem witness_MarkersMatterAtOffsetZeroOnly :
    (idle [.byte 0xA1#8]).pos = 0#9 ∧ 0xA1#8 ≠ 0xA0#8 ∧ 0xA1#8 ≠ 0xB0#8 ∧ (idle [.byte 0xA1#8]).input = [.byte 0xA1#8] ∧
    (lastLen 0xA0#8 0#8).pos ≠ 0#9 := by decide

theorem witness_StepRunsTheDecodedInstruction : ∃ i, (lastLen 0xA0#8 0#8).input = .byte 0#8 :: [] ∧
    decode (lastLen 0xA0#8 0#8).feedCtx [0#8] = .ok i := ⟨_, rfl, rfl⟩

theorem witness_TheBlockWaitsForTheNextByte : (idle []).input = [] ∧ InputEvent.readError ≠ .reset ∧
    InputEvent.byte 0#8 ≠ .reset ∧ (idle [.reset]).input = .reset :: [] := by decide

theorem witness_SourceErrorStutters : (idle [.readError, .byte 1#8]).input = .readError :: [.byte 1#8] := by decide

theorem witness_ResetDiscardsTheFrame : (st 9#9 0xA0#8 0#8 10#8 6#8 [] [.reset, .byte 1#8]).input = .reset :: [.byte 1#8] := by
  decide

theorem witness_EachByteIsConsumedOnce : (idle [.byte 1#8, .byte 2#8]).input = .byte 1#8 :: [.byte 2#8] := by decide

/-- At the top of the position's range: 257, length 255, the buffer full. -/
theorem witness_EveryStepKeepsTheInvariant : ∃ t,
    (st 257#9 0xA0#8 0xFF#8 0xFF#8 8#8 [] [.byte 0#8]).Inv ∧
    step (st 257#9 0xA0#8 0xFF#8 0xFF#8 8#8 [] [.byte 0#8]) = .next t := ⟨_, by decide, rfl⟩

theorem witness_RunsFromLegalStatesAreSafe : (lastDrop 0xA0#8 0#8).Inv := by decide

theorem witness_EveryStepKeepsTheBufferForm : ∃ t, (lastPay 0#8).BufOk ∧ step (lastPay 0#8) = .next t :=
  ⟨_, by decide, rfl⟩

/-- A byte, and no byte. -/
theorem witness_PositionAdvancesByOneOrReturnsToIdle : (∃ t, step (lastPay 0#8) = .next t) ∧
    (∃ t, step (idle [.reset]) = .next t) ∧ (∃ t, step (idle []) = .next t) :=
  ⟨⟨_, rfl⟩, ⟨_, rfl⟩, _, rfl⟩

/-- FEED_PAY at the last free cell, and a full buffer. -/
theorem witness_BufferIsFilledInArrivalOrder :
    feedInstr (st 10#9 0xA0#8 0#8 10#8 7#8 [] [.byte 1#8]) 1#8 = .feedPay 1#8 ∧
    (lastDrop 0xA0#8 0#8).cnt.toNat = (lastDrop 0xA0#8 0#8).capacity ∧
    feedInstr (lastDrop 0xA0#8 0#8) 9#8 ≠ .feedPay 9#8 := by decide

theorem witness_ParametersAreConstant : ∃ t, step (lastPay 0#8) = .next t := ⟨_, rfl⟩

theorem witness_SinkFollowsTheWritesInOrder : (lastPay 2#8).input = .byte 6#8 :: [] := by decide

theorem witness_SinkWriteSetsOneChannel : Channel.ch2 ≠ .ch1 := by decide

/-- Two states with different bytes above `cnt`. -/
theorem witness_HiddenCellsNeverReachAnOutput :
    State.SameButHidden (st 4#9 0xA0#8 1#8 2#8 1#8 [5#8, 6#8] [.byte 1#8]) (st 4#9 0xA0#8 1#8 2#8 1#8 [5#8, 7#8] [.byte 1#8]) ∧
    st 4#9 0xA0#8 1#8 2#8 1#8 [5#8, 6#8] [.byte 1#8] ≠ st 4#9 0xA0#8 1#8 2#8 1#8 [5#8, 7#8] [.byte 1#8] := by
  unfold State.SameButHidden
  decide

/-- Two states with different stale headers, at Idle and while LEN is awaited. -/
theorem witness_StaleHeadersNeverReachAnOutput :
    State.SameButStale (st 0#9 1#8 2#8 3#8 0#8 [] [.byte 1#8]) (st 0#9 4#8 5#8 6#8 0#8 [] [.byte 1#8]) ∧
    State.SameButStale (st 2#9 0xA0#8 2#8 3#8 0#8 [] [.byte 0#8]) (st 2#9 0xA0#8 2#8 6#8 0#8 [] [.byte 0#8]) := by
  unfold State.SameButStale
  decide

/-- A byte that emits a frame, and one that does not. -/
theorem witness_FrameIsEmittedExactlyAtItsLastByte :
    (∃ t f, (lastLen 0xB0#8 1#8).input = .byte 0#8 :: [] ∧ step (lastLen 0xB0#8 1#8) = .next t ∧ t.out.frame = some f) ∧
    ∃ t, step (idle [.byte 0xA0#8]) = .next t ∧ t.out.frame = none :=
  ⟨⟨_, _, rfl, rfl, rfl⟩, _, rfl, rfl⟩

/-- A payload below the capacity, and one above it. -/
theorem witness_EmittedPayloadHasTheDeclaredLengthUpToCapacity :
    (∃ t f, (lastPay 0#8).Inv ∧ step (lastPay 0#8) = .next t ∧ t.out.frame = some f ∧ f.len = 2#8) ∧
    ∃ t f, (lastDrop 0xA0#8 0#8).Inv ∧ step (lastDrop 0xA0#8 0#8) = .next t ∧ t.out.frame = some f ∧ f.len = 9#8 :=
  ⟨⟨_, _, by decide, rfl, rfl, rfl⟩, _, _, by decide, rfl, rfl, rfl⟩

/-- The shortest frame (length 0), and one longer than the capacity (length 9). -/
theorem witness_AFrameCompletesOnItsLastByte :
    let p : List Byte := [1#8, 2#8, 3#8, 4#8, 5#8, 6#8, 7#8, 8#8, 9#8]
    (idle []).pos = 0#9 ∧ (idle []).cnt = 0#8 ∧ ([] : List Byte).length = (0#8 : Byte).toNat ∧ p.length = (9#8 : Byte).toNat ∧
    (idle ((frameBytes 0xB0#8 1#8 0#8 []).map .byte ++ [.reset])).input =
      (frameBytes 0xB0#8 1#8 0#8 []).map .byte ++ [.reset] ∧
    (idle ((frameBytes 0xA0#8 0#8 9#8 p).map .byte)).input = (frameBytes 0xA0#8 0#8 9#8 p).map .byte ++ [] := by decide

/-- A byte stored (the 8th payload byte, k 10), and one dropped (the 9th, k 11). -/
theorem witness_EachByteBeyondCapacityIsDropped :
    let p : List Byte := [1#8, 2#8, 3#8, 4#8, 5#8, 6#8, 7#8, 8#8, 9#8]
    (idle []).pos = 0#9 ∧ (idle []).cnt = 0#8 ∧ p.length = (9#8 : Byte).toNat ∧
    (idle ((frameBytes 0xA0#8 0#8 9#8 p).map .byte)).input = (frameBytes 0xA0#8 0#8 9#8 p).map .byte ++ [] ∧
    ¬ 3 + (idle []).capacity ≤ 10 ∧ 3 + (idle []).capacity ≤ 11 ∧ 11 < 3 + (9#8 : Byte).toNat ∧ p[11 - 3]? = some 9#8 := by
  decide

theorem witness_AssembledCommandsDriveTheSink :
    (idle []).pos = 0#9 ∧ (idle []).cnt = 0#8 ∧
    (idle ((AsmForm.setRgb 1#8 2#8 3#8).bytes.map .byte ++ [.reset])).input =
      (AsmForm.setRgb 1#8 2#8 3#8).bytes.map .byte ++ [.reset] ∧
    (idle (AsmForm.auxOff.bytes.map .byte)).input = AsmForm.auxOff.bytes.map .byte ++ [] := by decide

theorem witness_ConditionsOfOneTransition :
    (lastDrop 0xB0#8 0#8).input = .byte 9#8 :: [] ∧ (idle [.readError]).input = .readError :: [] ∧
    (idle [.reset]).input = .reset :: [] := by decide

/-- Position 256, whose 8-bit wrap is 0. -/
theorem witness_EightBitComparisonCompletesTheSameFrames : ∃ t,
    (st 256#9 0xA0#8 0#8 0xFF#8 8#8 [] [.byte 1#8]).Inv ∧
    (st 256#9 0xA0#8 0#8 0xFF#8 8#8 [] [.byte 1#8]).input = .byte 1#8 :: [] ∧
    step (st 256#9 0xA0#8 0#8 0xFF#8 8#8 [] [.byte 1#8]) = .next t := ⟨_, by decide, rfl, rfl⟩

theorem witness_OnlyBytesAndResetLeaveAFrame :
    (∃ t, (lastLen 0xA0#8 0#8).pos ≠ 0#9 ∧ step (lastLen 0xA0#8 0#8) = .next t ∧ t.pos ≠ (lastLen 0xA0#8 0#8).pos) ∧
    (idle []).input = [] ∧ (idle [.readError, .readError]).input = List.replicate 2 .readError :=
  ⟨⟨_, by decide, rfl, by decide⟩, rfl, rfl⟩

/-- The ports' four cases: reset, byte, nothing, failure. -/
theorem witness_PortsPresentTheSameTransitions :
    let p : Bool → Bool → Bool → PortIn := fun r v e => ⟨r, v, e, 1#8, 9#16⟩
    (p true true false).rst = true ∧
    ((p false true false).rst = false ∧ (p false true false).inErr = false ∧ (p false true false).inValid = true) ∧
    ((p false false false).inErr = false ∧ (p false false false).inValid = false) ∧
    ((p false true true).rst = false ∧ (p false true true).inErr = true) := by decide

/-- A transaction that completes a frame, with the stored bytes below the capacity, and one that does not. -/
theorem witness_FramePortCarriesTheCompletedFrame :
    let p : PortIn := { rst := false, inValid := true, inErr := false, inByte := 6#8, maxDuty := 9#16 }
    (∃ t f, (lastPay 0#8).Inv ∧ portStep p (lastPay 0#8) = .next t ∧ t.out.frame = some f ∧ f.cnt = 2#8) ∧
    ∃ t, (idle []).Inv ∧ portStep p (idle []) = .next t ∧ t.out.frame = none :=
  ⟨⟨_, _, by decide, rfl, rfl, rfl⟩, _, by decide, rfl, rfl⟩

end Sys2Proof.Tests
end

/-! SUPPORT. The memory family (spec/20_memory.md R52, R54, R57, R58): the byte source is read one event per step, the
buffer's cells are written by FEED_PAY alone, and a command clears the count and no cell. -/

namespace Sys2Proof.Proofs.Memory

open Sys2Proof Sys2Proof.Machine

/-! ### Commands -/

/-- A command's instruction never stops, and what it leaves is named. -/
theorem exec_command (c : Command) (s : State) : exec c.instr s = .next (afterCommand c s) :=
  (exec_instr c s).trans (perform_eq c s)

/-- Settles O16: a command leaves `afterCommand`, which keeps the buffer and the reset's number. -/
theorem everyCommandClearsWithoutWritingCells : Obligations.EveryCommandClearsWithoutWritingCells :=
  ⟨fun s => ⟨rfl, clear_cell s⟩,
    fun c s => ⟨_, exec_command c s, afterCommand_cnt c s, afterCommand_buf c s, afterCommand_cell c s⟩⟩

/-! ### The byte source -/

/-- The completion test takes nothing from the source. -/
theorem completeFrame_input (w : State) : ∃ v, completeFrame w = .next v ∧ v.input = w.input := by
  refine ⟨_, completeFrame_eq w, ?_⟩
  split
  · exact afterFrame_input w
  · rfl

/-- An assembler operation never stops, and takes nothing from the source itself. -/
theorem exec_feedInstr_input (b : Byte) (u : State) :
    ∃ v, exec (feedInstr u b) u = .next v ∧ v.input = u.input := by
  rcases feed_cases b u with ⟨-, -, -, e⟩ | ⟨-, -, -, -, e⟩ | ⟨-, -, e⟩ | ⟨-, -, e⟩ | ⟨-, -, -, e⟩ | ⟨-, -, -, e⟩
  · exact ⟨_, e, rfl⟩
  · exact ⟨_, e, raise_input _ u⟩
  · exact ⟨_, e, rfl⟩
  · rw [e]; exact completeFrame_input (lenTaken b u)
  · rw [e]; exact completeFrame_input (payTaken b u)
  · rw [e]; exact completeFrame_input (dropTaken b u)

/-- Settles O33, by the kind of event: what follows the taking of an event leaves the source alone. -/
theorem eachByteIsConsumedOnce : Obligations.EachByteIsConsumedOnce := by
  intro s e rest hi
  cases e with
  | byte b =>
    rw [step_byte hi]
    exact exec_feedInstr_input b (takeEvent s rest)
  | readError => exact ⟨_, step_readError hi, takeEvent_input rest s⟩
  | reset => exact ⟨_, step_reset hi, takeEvent_input rest s⟩

/-- With nothing from the source, a run of any length stays where it is. -/
theorem run_of_input_nil {s : State} (h : s.input = []) (k : Nat) : runSteps k s = .next s := by
  induction k with
  | zero => rfl
  | succ k ih => rw [run_succ (step_nil h), ih]

/-- Settles O29: the empty source by induction on the run, an event there by O33's theorem. -/
theorem theBlockWaitsForTheNextByte : Obligations.TheBlockWaitsForTheNextByte := by
  refine ⟨?_, fun s h k => run_of_input_nil h k, eachByteIsConsumedOnce⟩
  intro e he
  cases e with
  | byte b => exact .inl ⟨b, rfl⟩
  | readError => exact .inr rfl
  | reset => exact absurd rfl he

/-! ### The buffer's cells -/

@[simp] theorem lenTaken_cell (b : Byte) (s : State) (j : Nat) : (lenTaken b s).cell j = s.cell j := rfl

@[simp] theorem lenTaken_cnt (b : Byte) (s : State) : (lenTaken b s).cnt = s.cnt := rfl

@[simp] theorem dropTaken_cell (b : Byte) (s : State) (j : Nat) : (dropTaken b s).cell j = s.cell j := rfl

@[simp] theorem dropTaken_cnt (b : Byte) (s : State) : (dropTaken b s).cnt = s.cnt := rfl

theorem payTaken_cell_same (b : Byte) (s : State) : (payTaken b s).cell s.cnt.toNat = b :=
  cell_write_same s s.cnt.toNat b

theorem payTaken_cell_other (b : Byte) (s : State) {j : Nat} (h : j ≠ s.cnt.toNat) :
    (payTaken b s).cell j = s.cell j :=
  cell_write_other s b h

/-- The count does not wrap while a cell is free, since the capacity is at most 255 (R11). -/
theorem payTaken_cnt_toNat (b : Byte) {s : State} (h : s.cnt.toNat < s.capacity) :
    (payTaken b s).cnt.toNat = s.cnt.toNat + 1 := by
  have hcap := capacity_le_255 s
  exact BitVec.toNat_add_of_lt (y := 1#8) (by simp; omega)

/-- The completion test writes no cell, and does not touch the count unless it emits. -/
theorem completeFrame_cells {w t : State} (h : completeFrame w = .next t) :
    (∀ j, t.cell j = w.cell j) ∧ (t.out.frame = none → t.cnt = w.cnt) := by
  rw [completeFrame_eq] at h
  split at h <;> cases h
  · exact ⟨afterFrame_cell w, fun hf => by simp at hf⟩
  · exact ⟨fun _ => rfl, fun _ => rfl⟩

/-- FEED_PAY's row asks for a free cell (R76). -/
theorem cnt_lt_capacity_of_feedPay {s : State} {b : Byte} (h : feedInstr s b = .feedPay b) :
    s.cnt.toNat < s.capacity := by
  rcases feed_cases b s with ⟨-, -, e, -⟩ | ⟨-, -, -, e, -⟩ | ⟨-, e, -⟩ | ⟨-, e, -⟩ | ⟨-, hc, -⟩ | ⟨-, -, e, -⟩
  case inr.inr.inr.inr.inl => exact hc
  all_goals simp [e] at h

/-- FEED_PAY writes the byte to the cell at the count and to no other, and counts it unless the frame ends. -/
theorem feedPay_cells {u t : State} {b : Byte} (hp : feedInstr u b = .feedPay b)
    (h : exec (feedInstr u b) u = .next t) :
    t.cell u.cnt.toNat = b ∧ (∀ j, j ≠ u.cnt.toNat → t.cell j = u.cell j) ∧
      (t.out.frame = none → t.cnt.toNat = u.cnt.toNat + 1) := by
  have hc := cnt_lt_capacity_of_feedPay hp
  rw [hp] at h
  obtain ⟨hcell, hcnt⟩ := completeFrame_cells ((execFeedPay_eq hc).symm.trans h)
  refine ⟨?_, fun j hj => ?_, fun hf => ?_⟩
  · rw [hcell, payTaken_cell_same]
  · rw [hcell, payTaken_cell_other b u hj]
  · rw [hcnt hf, payTaken_cnt_toNat b hc]

/-- An assembler operation other than FEED_PAY writes no cell, and not the count unless the frame ends. -/
theorem feedOther_cells {u t : State} {b : Byte} (hp : feedInstr u b ≠ .feedPay b)
    (h : exec (feedInstr u b) u = .next t) :
    (∀ j, t.cell j = u.cell j) ∧ (t.out.frame = none → t.cnt = u.cnt) := by
  rcases feed_cases b u with ⟨-, -, -, e⟩ | ⟨-, -, -, -, e⟩ | ⟨-, -, e⟩ | ⟨-, -, e⟩ | ⟨-, -, hpay, -⟩ | ⟨-, -, -, e⟩
  · cases e.symm.trans h
    exact ⟨fun _ => rfl, fun _ => rfl⟩
  · cases e.symm.trans h
    exact ⟨raise_cell _ u, fun _ => rfl⟩
  · cases e.symm.trans h
    exact ⟨fun _ => rfl, fun _ => rfl⟩
  · simpa using completeFrame_cells (e.symm.trans h)
  · exact absurd hpay hp
  · simpa using completeFrame_cells (e.symm.trans h)

/-- Settles O41: the byte step is `exec` after the event is taken, which moves neither a cell nor the count. -/
theorem bufferIsFilledInArrivalOrder : Obligations.BufferIsFilledInArrivalOrder := by
  refine ⟨fun s t b rest hi hs => ?_, fun c s => ⟨_, exec_command c s, afterCommand_cell c s⟩⟩
  have he : exec (feedInstr (takeEvent s rest) b) (takeEvent s rest) = .next t := (step_byte hi).symm.trans hs
  refine ⟨fun hp => ?_, fun hp => feedOther_cells (u := takeEvent s rest) hp he, fun hfull hp => ?_⟩
  · exact ⟨cnt_lt_capacity_of_feedPay hp, feedPay_cells (u := takeEvent s rest) hp he⟩
  · exact absurd (cnt_lt_capacity_of_feedPay hp) (by omega)

end Sys2Proof.Proofs.Memory

/-! SUPPORT. The encoding family (spec/30_encoding.md R76, R79): the row of an input byte, position by position, and
the one place where a byte's being a marker decides, the first byte of a frame. -/

namespace Sys2Proof.Proofs.Encoding

open Sys2Proof Sys2Proof.Machine

/-! ### The row of an input byte -/

/-- The negative side of `isMarker_iff`, in the form the statements write it. -/
theorem isMarker_eq_false_iff (b : Byte) : isMarker b = false ↔ b ≠ 0xA0#8 ∧ b ≠ 0xB0#8 := by
  rw [← Bool.not_eq_true, isMarker_iff, not_or]

theorem feedInstr_eq_feedNoise {s : State} {b : Byte} (h : s.pos.toNat = 0) (hb : isMarker b = false) :
    feedInstr s b = .feedNoise b := by
  simp [feedInstr, State.feedCtx, decodeFeed, faState_zero h, hb]

theorem feedInstr_eq_feedCmd {s : State} (h : s.pos.toNat = 1) (b : Byte) : feedInstr s b = .feedCmd b := by
  simp [feedInstr, State.feedCtx, decodeFeed, faState_one h]

theorem feedInstr_eq_feedLen {s : State} (h : s.pos.toNat = 2) (b : Byte) : feedInstr s b = .feedLen b := by
  simp [feedInstr, State.feedCtx, decodeFeed, faState_two h]

theorem feedInstr_eq_feedPay {s : State} (h : 3 ≤ s.pos.toNat) (hc : s.cnt.toNat < s.capacity) (b : Byte) :
    feedInstr s b = .feedPay b := by
  simp [feedInstr, State.feedCtx, decodeFeed, faState_pay h, hc]

theorem feedInstr_eq_feedDrop {s : State} (h : 3 ≤ s.pos.toNat) (hc : ¬ s.cnt.toNat < s.capacity) (b : Byte) :
    feedInstr s b = .feedDrop b := by
  simp [feedInstr, State.feedCtx, decodeFeed, faState_pay h, hc]

/-! ### Markers -/

/-- At Idle a byte that is no marker leaves its NOISE as the step's whole observation (R79, R102). -/
theorem step_noise {s : State} {b : Byte} {rest : List InputEvent} (h : s.pos.toNat = 0) (hb : isMarker b = false)
    (hi : s.input = .byte b :: rest) :
    step s = .next { s with input := rest, out := { conds := [.noise b] } } := by
  rw [step_byte hi, feedInstr_eq_feedNoise h hb]
  rfl

/-- A header is refused for its first byte alone, whatever the command byte and the state (R79). -/
theorem decode_header_error_iff (c : FeedCtx) (app cmd : Byte) :
    (∃ e, decode c [app, cmd] = .error e) ↔ isMarker app = false := by
  cases h : isMarker app <;> simp [decode, h]

/-- Within a frame the position and the count choose the row before the byte is seen (R76, R79). -/
theorem feedInstr_row_of_pos_ne_zero {s : State} (h : s.pos.toNat ≠ 0) :
    ∃ row ∈ [Instr.feedCmd, Instr.feedLen, Instr.feedPay, Instr.feedDrop], ∀ b : Byte, feedInstr s b = row b := by
  by_cases h1 : s.pos.toNat = 1
  · exact ⟨.feedCmd, by simp, feedInstr_eq_feedCmd h1⟩
  by_cases h2 : s.pos.toNat = 2
  · exact ⟨.feedLen, by simp, feedInstr_eq_feedLen h2⟩
  have h3 : 3 ≤ s.pos.toNat := by omega
  by_cases hc : s.cnt.toNat < s.capacity
  · exact ⟨.feedPay, by simp, feedInstr_eq_feedPay h3 hc⟩
  · exact ⟨.feedDrop, by simp, feedInstr_eq_feedDrop h3 hc⟩

/-- Settles O27: the noise step, the refused header, and the row chosen by position and count. -/
theorem markersMatterAtOffsetZeroOnly : Obligations.MarkersMatterAtOffsetZeroOnly := by
  refine ⟨fun s b rest hpos hA hB hi => ?_, fun c app cmd => ?_, fun s hpos => ?_⟩
  · exact step_noise (by simp [hpos]) ((isMarker_eq_false_iff b).2 ⟨hA, hB⟩) hi
  · exact (decode_header_error_iff c app cmd).trans (isMarker_eq_false_iff app)
  · exact feedInstr_row_of_pos_ne_zero fun h => hpos (BitVec.eq_of_toNat_eq h)

end Sys2Proof.Proofs.Encoding

/-! SUPPORT. The frame assembler's family (spec/40_frame_assembler.md R101 to R104, R107, R110, R113): each operation
as the state it answers, the completion test as an emission and the command's own run, and what leaves a frame. -/

namespace Sys2Proof.Proofs.FrameAssembler

open Sys2Proof Sys2Proof.Machine
open Sys2Proof.Proofs.Memory (exec_command run_of_input_nil)
open Sys2Proof.Proofs.Encoding

/-! ### The header bytes -/

theorem exec_feedApp (b : Byte) (s : State) : exec (.feedApp b) s = .next { s with app := b, pos := 1#9 } := rfl

theorem exec_feedCmd (b : Byte) (s : State) : exec (.feedCmd b) s = .next { s with cmd := b, pos := 2#9 } := rfl

theorem feedInstr_eq_feedApp {s : State} {b : Byte} (h : s.pos.toNat = 0) (hb : isMarker b = true) :
    feedInstr s b = .feedApp b := by
  simp [feedInstr, State.feedCtx, decodeFeed, faState_zero h, hb]

/-- Before the payload begins a legal state stores nothing (R24, I2). -/
theorem cnt_eq_zero_of_inv {s : State} (h : s.Inv) (hpos : s.pos.toNat ≤ 2) : s.cnt = 0#8 := by
  obtain ⟨-, hI2, -⟩ := h
  exact BitVec.eq_of_toNat_eq (hI2 hpos)

/-- Settles O1: the operation's equation, its row at Idle, and I2. -/
theorem feedAppStoresTheAppByte : Obligations.FeedAppStoresTheAppByte := by
  refine fun s b => ⟨exec_feedApp b s, fun hpos hb => ?_, fun hinv hpos => ?_⟩
  · exact feedInstr_eq_feedApp (by simp [hpos]) ((isMarker_iff b).2 hb)
  · exact cnt_eq_zero_of_inv hinv (by simp [hpos])

/-- Settles O4: the operation's equation and its row, which does not look at the byte. -/
theorem feedCmdStoresTheCommandByte : Obligations.FeedCmdStoresTheCommandByte :=
  fun s b => ⟨exec_feedCmd b s, fun hpos => feedInstr_eq_feedCmd (by simp [hpos]) b⟩

/-! ### Noise -/

/-- A run of noise at Idle keeps all but the bytes still to come and the observation: each byte leaves the block at
Idle, where the next one is noise again (R102). -/
theorem runSteps_noise {s : State} {bytes : List Byte} {rest : List InputEvent} (hpos : s.pos.toNat = 0)
    (hb : ∀ b ∈ bytes, isMarker b = false) (hi : s.input = bytes.map .byte ++ rest) (k : Nat)
    (hk : k < bytes.length) :
    runSteps (k + 1) s =
      .next { s with input := (bytes.drop (k + 1)).map .byte ++ rest, out := { conds := [.noise bytes[k]] } } := by
  induction bytes generalizing s k with
  | nil => simp at hk
  | cons b bytes ih =>
    obtain ⟨hb0, hbs⟩ := List.forall_mem_cons.1 hb
    rw [run_succ (step_noise hpos hb0 hi)]
    cases k with
    | zero => rfl
    | succ k =>
      exact ih (s := { s with input := bytes.map .byte ++ rest, out := { conds := [.noise b] } }) hpos hbs rfl k
        (Nat.lt_of_succ_lt_succ hk)

/-- Settles O3, by induction on the run of noise bytes. -/
theorem noiseRunsLeaveTheBlockIdle : Obligations.NoiseRunsLeaveTheBlockIdle := by
  intro s bytes rest hpos hb hi k hk
  have hidle : s.pos.toNat = 0 := by simp [hpos]
  have hnoise : ∀ b ∈ bytes, isMarker b = false := fun b hmem => (isMarker_eq_false_iff b).2 (hb b hmem)
  exact ⟨feedInstr_eq_feedNoise hidle (hnoise _ (List.getElem_mem hk)), runSteps_noise hidle hnoise hi k hk⟩

/-! ### The completion test -/

theorem completeFrame_of_open {w : State} (h : w.pos.toNat ≠ w.len.toNat + 3) : completeFrame w = .next w := by
  rw [completeFrame_eq, if_neg h]

/-- A completed frame is emitted, its command runs, and the state the command leaves goes back to Idle (R110). -/
theorem completeFrame_of_complete {w : State} (h : w.pos.toNat = w.len.toNat + 3) :
    ∃ t, exec (decodeCommand w.app w.cmd).instr (emitFrame w) = .next t ∧ completeFrame w = .next (toIdle t) := by
  refine ⟨_, exec_command _ _, ?_⟩
  rw [completeFrame_eq, if_pos h, afterFrame]

/-- After FEED_LEN the frame is complete exactly for length 0 (R104, R105). -/
theorem lenTaken_complete_iff (b : Byte) (s : State) :
    (lenTaken b s).pos.toNat = (lenTaken b s).len.toNat + 3 ↔ b = 0x00#8 := by
  simp [lenTaken, ← BitVec.toNat_inj, eq_comm]

/-- Settles O5: the completion test on the state that holds the new length. -/
theorem feedLenStoresTheLengthAndTests : Obligations.FeedLenStoresTheLengthAndTests := by
  refine fun s b => ⟨fun hpos => ?_, fun hinv hpos => ?_, fun hb => ?_, fun hb => ?_⟩
  · exact feedInstr_eq_feedLen (by simp [hpos]) b
  · exact cnt_eq_zero_of_inv hinv (by simp [hpos])
  · exact completeFrame_of_open (mt (lenTaken_complete_iff b s).1 hb)
  · exact completeFrame_of_complete ((lenTaken_complete_iff b s).2 hb)

/-- Settles O8: the completion test on the state that has lost the byte. -/
theorem feedDropLosesTheByte : Obligations.FeedDropLosesTheByte := by
  intro s b u
  refine ⟨fun hpos hfull => ?_, fun hopen => ?_, fun hcomplete => ?_⟩
  · exact feedInstr_eq_feedDrop hpos (by omega) b
  · exact completeFrame_of_open (w := dropTaken b s) hopen
  · exact completeFrame_of_complete (w := dropTaken b s) hcomplete

/-! ### What leaves a frame -/

/-- The position is `p` and the source has nothing but read failures left. -/
def OnlyFailuresAt (p : PosWord) (s : State) : Prop := s.pos = p ∧ ∀ e ∈ s.input, e = .readError

/-- Neither the wait nor the source-error stutter moves the position (R57, R59). -/
theorem step_onlyFailuresAt {p : PosWord} (s : State) (h : OnlyFailuresAt p s) :
    ∃ t, step s = .next t ∧ OnlyFailuresAt p t := by
  obtain ⟨hp, hin⟩ := h
  rcases input_cases s with hnil | ⟨e, rest, hi⟩
  · exact ⟨s, step_nil hnil, hp, hin⟩
  · rw [hi, List.forall_mem_cons] at hin
    obtain ⟨rfl, hrest⟩ := hin
    exact ⟨_, step_readError hi, hp, hrest⟩

/-- A step that moves the position took a byte or a reset. -/
theorem input_of_step_pos_ne {s t : State} (hs : step s = .next t) (hmove : t.pos ≠ s.pos) :
    ∃ rest, (∃ b, s.input = .byte b :: rest) ∨ s.input = .reset :: rest := by
  rcases input_cases s with hnil | ⟨e, rest, hi⟩
  · cases (step_nil hnil).symm.trans hs
    exact absurd rfl hmove
  · cases e with
    | byte b => exact ⟨rest, .inl ⟨b, hi⟩⟩
    | readError =>
      cases (step_readError hi).symm.trans hs
      exact absurd rfl hmove
    | reset => exact ⟨rest, .inr hi⟩

/-- Settles O55: the position's movers by the kind of event, the failures by an invariant of the run, and the rows
away from Idle. -/
theorem onlyBytesAndResetLeaveAFrame : Obligations.OnlyBytesAndResetLeaveAFrame := by
  refine ⟨fun s t _ hs hmove => input_of_step_pos_ne hs hmove, fun s hi k => run_of_input_nil hi k,
    fun s n hi k => ?_, fun s b hpos => ?_⟩
  · have hstart : OnlyFailuresAt s.pos s := ⟨rfl, fun e he => List.eq_of_mem_replicate (hi ▸ he)⟩
    obtain ⟨t, ht, hp, -⟩ := run_invariant step_onlyFailuresAt k hstart
    exact ⟨t, ht, hp⟩
  · obtain ⟨row, hrow, hinstr⟩ := feedInstr_row_of_pos_ne_zero fun h => hpos (BitVec.eq_of_toNat_eq h)
    rw [hinstr b]
    exact List.mem_map_of_mem (f := fun r : Byte → Instr => r b) hrow

end Sys2Proof.Proofs.FrameAssembler

/-! SUPPORT. The command dispatcher's family (spec/41_command_dispatcher.md R143 to R147, R149 to R152): what each
command leaves, as an equation over its writes and its condition; the command map's unlisted headers; a byte that
completes a frame; and what a command's writes and conditions depend on. -/

namespace Sys2Proof.Proofs.Dispatcher

open Sys2Proof Sys2Proof.Machine
open Sys2Proof.Proofs.Memory (exec_command feedPay_cells feedOther_cells)

/-! ### What a command leaves -/

/-- A command that raises nothing. -/
theorem exec_of_writes {c : Command} {s : State} {ws : List SinkWrite} (hw : commandWrites c s = ws)
    (hc : commandConds c s = []) :
    exec c.instr s = .next
      { s with
        cnt := 0#8
        duty := applyWrites s.duty ws
        out := { s.out with writes := s.out.writes ++ ws } } := by
  rw [exec_command, afterCommand, hw, hc, List.append_nil]

/-- A command that writes nothing. -/
theorem exec_of_conds {c : Command} {s : State} {cs : List Condition} (hw : commandWrites c s = [])
    (hc : commandConds c s = cs) :
    exec c.instr s = .next { s with cnt := 0#8, out := { s.out with conds := s.out.conds ++ cs } } := by
  rw [exec_command, afterCommand, hw, hc, List.append_nil, applyWrites_nil]

/-- Only the four colour commands can be short of their payload, and each then raises UNDERRUN alone (R142). -/
theorem exec_of_short {c : Command} {s : State} (h : s.cnt.toNat < requiredPayload c) :
    exec c.instr s = .next
      { s with
        cnt := 0#8
        out := { s.out with conds := s.out.conds ++ [.underrun s.app s.cmd s.len s.cnt] } } := by
  cases c with
  | setRgb => exact exec_of_conds (if_pos h) (if_pos h)
  | setCh1 => exact exec_of_conds (if_pos h) (if_pos h)
  | setCh2 => exact exec_of_conds (if_pos h) (if_pos h)
  | setCh3 => exact exec_of_conds (if_pos h) (if_pos h)
  | auxOn | auxOff | colorNop _ | auxNop _ => exact absurd h (Nat.not_lt_zero _)

/-- Settles O9: the full payload with the exactness of the scaling, the short one as any command's. -/
theorem setRgbWritesThreeScaledChannels : Obligations.SetRgbWritesThreeScaledChannels := by
  refine ⟨rfl, fun s => ⟨fun hfull => ?_, exec_of_short (c := .setRgb)⟩⟩
  have hnot : ¬ s.cnt.toNat < 3 := Nat.not_lt.2 hfull
  exact ⟨_, _, _, scale_toNat _ _, scale_toNat _ _, scale_toNat _ _,
    exec_of_writes (c := .setRgb) (if_neg hnot) (if_neg hnot)⟩

/-- The command needs one byte, and scales it to the channel `ch`. -/
def ScalesFirstByteTo (ch : Channel) (c : Command) : Prop :=
  requiredPayload c = 1 ∧ ∀ s : State, 1 ≤ s.cnt.toNat →
    commandWrites c s = [⟨ch, scale (maxDuty s) (s.cell 0)⟩] ∧ commandConds c s = []

theorem setCh1_scalesFirstByte : ScalesFirstByteTo .ch1 .setCh1 :=
  ⟨rfl, fun _ h => ⟨if_neg (Nat.not_lt.2 h), if_neg (Nat.not_lt.2 h)⟩⟩

theorem setCh2_scalesFirstByte : ScalesFirstByteTo .ch2 .setCh2 :=
  ⟨rfl, fun _ h => ⟨if_neg (Nat.not_lt.2 h), if_neg (Nat.not_lt.2 h)⟩⟩

theorem setCh3_scalesFirstByte : ScalesFirstByteTo .ch3 .setCh3 :=
  ⟨rfl, fun _ h => ⟨if_neg (Nat.not_lt.2 h), if_neg (Nat.not_lt.2 h)⟩⟩

/-- Both outcomes of a single-channel command (R145 to R147). -/
theorem exec_of_scalesFirstByte {ch : Channel} {c : Command} (hc : ScalesFirstByteTo ch c) (s : State) :
    (1 ≤ s.cnt.toNat → ∃ d : Duty, d.toNat = s.par.maxDuty.toNat / 255 * (s.cell 0).toNat ∧
      exec c.instr s = .next
        { s with
          cnt := 0#8
          duty := s.duty.set ch d
          out := { s.out with writes := s.out.writes ++ [⟨ch, d⟩] } }) ∧
    (s.cnt.toNat < 1 → exec c.instr s = .next
      { s with
        cnt := 0#8
        out := { s.out with conds := s.out.conds ++ [.underrun s.app s.cmd s.len s.cnt] } }) := by
  obtain ⟨hreq, hfull⟩ := hc
  refine ⟨fun h => ?_, fun h => exec_of_short (hreq ▸ h)⟩
  obtain ⟨hw, hconds⟩ := hfull s h
  exact ⟨_, scale_toNat _ _, exec_of_writes hw hconds⟩

/-- Settles O10: the three rows of the table, each a single-channel command. -/
theorem setChannelWritesOneScaledChannel : Obligations.SetChannelWritesOneScaledChannel := by
  intro x hx
  simp only [List.mem_cons, List.not_mem_nil, or_false] at hx
  rcases hx with rfl | rfl | rfl
  · exact ⟨rfl, exec_of_scalesFirstByte setCh1_scalesFirstByte⟩
  · exact ⟨rfl, exec_of_scalesFirstByte setCh2_scalesFirstByte⟩
  · exact ⟨rfl, exec_of_scalesFirstByte setCh3_scalesFirstByte⟩

/-- Settles O12: AUX_OFF has one constant write and no condition. -/
theorem auxOffWritesZero : Obligations.AuxOffWritesZero :=
  ⟨rfl, fun _ => exec_of_writes (c := .auxOff) rfl rfl⟩

/-! ### Headers outside the documented rows -/

theorem decodeCommand_colorNop {cmd : Byte} (h : 4 ≤ cmd.toNat) : decodeCommand 0xA0#8 cmd = .colorNop cmd := by
  have h0 : cmd.toNat ≠ 0 := by omega
  have h1 : cmd.toNat ≠ 1 := by omega
  have h2 : cmd.toNat ≠ 2 := by omega
  have h3 : cmd.toNat ≠ 3 := by omega
  simp [decodeCommand, opcode_eq_iff, h0, h1, h2, h3]

theorem decodeCommand_auxNop {cmd : Byte} (h : cmd.toNat = 0 ∨ 3 ≤ cmd.toNat) :
    decodeCommand 0xB0#8 cmd = .auxNop cmd := by
  have h1 : cmd.toNat ≠ 1 := by omega
  have h2 : cmd.toNat ≠ 2 := by omega
  simp [decodeCommand, opcode_eq_iff, h1, h2]

/-- A header outside the documented rows asks for no write, and raises UNKNOWN with its own two bytes (R80). -/
theorem unlisted_writes_conds {w : State}
    (h : (w.app = 0xA0#8 ∧ 4 ≤ w.cmd.toNat) ∨ (w.app = 0xB0#8 ∧ (w.cmd.toNat = 0 ∨ 3 ≤ w.cmd.toNat))) :
    commandWrites (decodeCommand w.app w.cmd) w = [] ∧
      commandConds (decodeCommand w.app w.cmd) w = [.unknown w.app w.cmd] := by
  rcases h with ⟨happ, hcmd⟩ | ⟨happ, hcmd⟩
  · rw [happ, decodeCommand_colorNop hcmd, ← happ]; exact ⟨rfl, rfl⟩
  · rw [happ, decodeCommand_auxNop hcmd, ← happ]; exact ⟨rfl, rfl⟩

/-- The position does not wrap where the next one is still that of some frame's last byte (R112). -/
theorem pos_succ_toNat {s : State} (h : s.pos.toNat + 1 = s.len.toNat + 3) :
    (s.pos + 1#9).toNat = s.len.toNat + 3 := by
  have hlen := s.len.isLt
  rw [← h]
  exact BitVec.toNat_add_of_lt (y := 1#9) (by simp; omega)

/-- A byte that brings the position to the frame's last byte completes the frame, with the header received before and
the sink untouched until the dispatch (R110). -/
theorem step_of_last_byte {s : State} {b : Byte} {rest : List InputEvent} (hi : s.input = .byte b :: rest)
    (hpos : 2 ≤ s.pos.toNat) (hlast : s.pos.toNat + 1 = (if s.pos.toNat = 2 then b.toNat else s.len.toNat) + 3) :
    ∃ w, step s = .next (afterFrame w) ∧ w.app = s.app ∧ w.cmd = s.cmd ∧ w.duty = s.duty ∧
      w.out.writes = [] := by
  obtain ⟨t, hs, -⟩ := feed_next b (takeEvent s rest)
  have hstep : step s = .next t := (step_byte hi).trans hs
  rcases byte_step_cases hi hstep with ⟨h0, -⟩ | ⟨h0, -⟩ | ⟨h1, -⟩ | ⟨w, hw, hend⟩
  · omega
  · omega
  · omega
  have hdone : w.pos.toNat = w.len.toNat + 3 := by
    rcases hw with ⟨h2, rfl⟩ | ⟨h3, -, rfl⟩ | ⟨h3, -, rfl⟩
    · rw [if_pos h2, h2] at hlast
      exact hlast
    · exact pos_succ_toNat (s := takeEvent s rest) (by rwa [if_neg (by omega)] at hlast)
    · exact pos_succ_toNat (s := takeEvent s rest) (by rwa [if_neg (by omega)] at hlast)
  obtain ⟨-, rfl⟩ | ⟨hopen, -⟩ := hend
  · refine ⟨w, hstep, ?_⟩
    rcases hw with ⟨-, rfl⟩ | ⟨-, -, rfl⟩ | ⟨-, -, rfl⟩ <;> exact ⟨rfl, rfl, rfl, rfl⟩
  · exact absurd hdone hopen

/-- Settles O13: the two defaults of the command map, their equation, and the dispatch at the frame's last byte. -/
theorem unlistedCommandsAreNoOps : Obligations.UnlistedCommandsAreNoOps := by
  refine fun cmd => ⟨fun h => ?_, fun h => ?_, fun s i hmem => ?_, fun s b rest hi hcmd hpos hlast hrow => ?_⟩
  · rw [decodeCommand_colorNop h]; rfl
  · rw [decodeCommand_auxNop h]; rfl
  · simp only [List.mem_cons, List.not_mem_nil, or_false] at hmem
    rcases hmem with rfl | rfl
    · exact exec_of_conds (c := .colorNop cmd) rfl rfl
    · exact exec_of_conds (c := .auxNop cmd) rfl rfl
  · obtain ⟨w, hstep, happ, hwcmd, hduty, hnone⟩ := step_of_last_byte hi hpos hlast
    rw [hcmd] at hwcmd
    obtain ⟨hw, hc⟩ := unlisted_writes_conds (w := w) (by rwa [happ, hwcmd])
    refine ⟨_, _, hstep, afterFrame_frame w, happ, hwcmd, ?_, ?_, ?_, afterFrame_pos w, afterFrame_cnt w⟩
    · rw [afterFrame_writes, hw, hnone, List.append_nil]
    · rw [afterFrame_duty, hw, applyWrites_nil, hduty]
    · rw [afterFrame_conds, hc, List.getLast?_concat, happ, hwcmd]

/-! ### The clear -/

/-- The dispatch clears the count and leaves the cells it read (R152). -/
theorem byte_step_of_frame {s t : State} {b : Byte} {rest : List InputEvent} {f : Frame}
    (hi : s.input = .byte b :: rest) (hs : step s = .next t) (hf : t.out.frame = some f) :
    t.cnt = 0#8 ∧ f.payload = (List.range f.cnt.toNat).map t.cell := by
  obtain ⟨w, -, -, rfl, rfl⟩ := byte_step_frame hi hs hf
  exact ⟨afterFrame_cnt w, rfl⟩

/-- Without a dispatch nothing clears: FEED_PAY stores and counts the byte, any other operation keeps the count. -/
theorem byte_step_of_no_frame {s t : State} {b : Byte} {rest : List InputEvent} (hi : s.input = .byte b :: rest)
    (hs : step s = .next t) (hf : t.out.frame = none) :
    t.cnt = s.cnt ∨ (t.cnt.toNat = s.cnt.toNat + 1 ∧ t.cell s.cnt.toNat = b) := by
  have he : exec (feedInstr (takeEvent s rest) b) (takeEvent s rest) = .next t := (step_byte hi).symm.trans hs
  by_cases hp : feedInstr (takeEvent s rest) b = .feedPay b
  · obtain ⟨hcell, -, hcnt⟩ := feedPay_cells hp he
    exact .inr ⟨hcnt hf, hcell⟩
  · obtain ⟨-, hcnt⟩ := feedOther_cells hp he
    exact .inl (hcnt hf)

/-- Settles O17: the clear, a command's end, and a byte step with and without a frame. -/
theorem payloadIsClearedByDispatchOnly : Obligations.PayloadIsClearedByDispatchOnly :=
  ⟨fun _ => rfl, fun c s => ⟨_, exec_command c s, afterCommand_cnt c s⟩,
    fun _ _ _ _ hi hs => ⟨fun _ => byte_step_of_frame hi hs, byte_step_of_no_frame hi hs⟩⟩

/-! ### What a command reads -/

/-- The writes read the count, MAX_DUTY and the required payload bytes (R143). -/
theorem commandWrites_congr {c : Command} {s s' : State} (hcnt : s'.cnt = s.cnt)
    (hmax : s'.par.maxDuty = s.par.maxDuty) (hcell : ∀ i, i < requiredPayload c → s'.cell i = s.cell i) :
    commandWrites c s' = commandWrites c s := by
  have hm : maxDuty s' = maxDuty s := hmax
  cases c with
  | setRgb =>
    have h0 := hcell 0 (by decide)
    have h1 := hcell 1 (by decide)
    have h2 := hcell 2 (by decide)
    simp only [commandWrites, hcnt, hm, h0, h1, h2]
  | setCh1 | setCh2 | setCh3 =>
    have h0 := hcell 0 (by decide)
    simp only [commandWrites, hcnt, hm, h0]
  | auxOn => simp only [commandWrites, hm]
  | auxOff | colorNop _ | auxNop _ => rfl

/-- The conditions read the header and the count, and no payload byte (R143). -/
theorem commandConds_congr {c : Command} {s s' : State} (happ : s'.app = s.app) (hcmd : s'.cmd = s.cmd)
    (hlen : s'.len = s.len) (hcnt : s'.cnt = s.cnt) : commandConds c s' = commandConds c s := by
  cases c <;> simp only [commandConds, happ, hcmd, hlen, hcnt]

/-- Settles O18: both runs end in `afterCommand`, with the same writes and conditions by the two congruences. -/
theorem dispatcherReadsOnlyItsFrame : Obligations.DispatcherReadsOnlyItsFrame := by
  intro c s s' happ hcmd hcnt hmax hcell
  have hw : commandWrites c s' = commandWrites c s := commandWrites_congr hcnt hmax hcell
  refine ⟨_, _, commandWrites c s, exec_command c s, exec_command c s', afterCommand_writes c s, ?_,
    fun hlen => ⟨commandConds c s, afterCommand_conds c s, ?_⟩, rfl, afterCommand_cnt c s⟩
  · rw [afterCommand_writes, hw]
  · rw [afterCommand_conds, commandConds_congr happ hcmd hlen hcnt]

end Sys2Proof.Proofs.Dispatcher

/-! SUPPORT. The exceptions family (spec/60_exceptions.md R181): what the discarded byte of the NOISE condition
leaves. -/

namespace Sys2Proof.Proofs.Exceptions

open Sys2Proof Sys2Proof.Machine
open Sys2Proof.Proofs.Encoding

/-- FEED_NOISE only records its condition, at whatever state it is performed (R102). -/
theorem exec_feedNoise (b : Byte) (s : State) :
    exec (.feedNoise b) s = .next { s with out := { s.out with conds := s.out.conds ++ [.noise b] } } := rfl

/-- Settles O2: the operation's equation and its row at Idle. -/
theorem feedNoiseLeavesTheStateUnchanged : Obligations.FeedNoiseLeavesTheStateUnchanged := by
  refine fun s b => ⟨exec_feedNoise b s, fun hpos hA hB => ?_⟩
  exact feedInstr_eq_feedNoise (by simp [hpos]) ((isMarker_eq_false_iff b).2 ⟨hA, hB⟩)

end Sys2Proof.Proofs.Exceptions

/-! SUPPORT. The codec (spec/30_encoding.md R76, R77): both decoders answer an instruction exactly when it is well
formed, selected and encoded to the bytes read, from which the round trips and the rows' conditions follow. -/

namespace Sys2Proof.Proofs.Codec

open Sys2Proof Sys2Proof.Machine
open Sys2Proof.Proofs.Encoding (isMarker_eq_false_iff)
open Sys2Proof.Proofs.Dispatcher (decodeCommand_colorNop decodeCommand_auxNop)

/-! ### FEED operations -/

theorem wf_feedApp_iff (b : Byte) : (Instr.feedApp b).wf = true ↔ isMarker b = true := Iff.rfl

theorem wf_feedNoise_iff (b : Byte) : (Instr.feedNoise b).wf = true ↔ isMarker b = false := by
  rw [← Bool.not_eq_true']; rfl

/-- What the assembler's decoder answers is well formed, selected, and encoded to the byte read. -/
theorem decodeFeed_sound (c : FeedCtx) (b : Byte) :
    (decodeFeed c b).wf = true ∧ selectedIn c (decodeFeed c b) = true ∧ encode (decodeFeed c b) = [b] := by
  rcases decodeFeed_cases c b with ⟨h, hb, e⟩ | ⟨h, hb, e⟩ | ⟨h, e⟩ | ⟨h, e⟩ | ⟨h, hc, e⟩ | ⟨h, hc, e⟩ <;> rw [e]
  · exact ⟨(wf_feedApp_iff b).2 hb, decide_eq_true h, rfl⟩
  · exact ⟨(wf_feedNoise_iff b).2 hb, decide_eq_true h, rfl⟩
  · exact ⟨rfl, decide_eq_true h, rfl⟩
  · exact ⟨rfl, decide_eq_true h, rfl⟩
  · exact ⟨rfl, by simp [selectedIn, h, hc], rfl⟩
  · exact ⟨rfl, by simp [selectedIn, h, hc], rfl⟩

/-- A row's byte is decoded to the row exactly where the row admits the byte and is selected (R76). -/
theorem decodeFeed_eq_iff {c : FeedCtx} {b : Byte} {i : Instr} (henc : encode i = [b]) :
    decodeFeed c b = i ↔ i.wf = true ∧ selectedIn c i = true := by
  refine ⟨?_, fun ⟨hwf, hsel⟩ => ?_⟩
  · rintro rfl
    obtain ⟨hwf, hsel, -⟩ := decodeFeed_sound c b
    exact ⟨hwf, hsel⟩
  · cases i with
    | feedApp x =>
      cases henc
      simp [decodeFeed, faState_zero (of_decide_eq_true hsel), (wf_feedApp_iff _).1 hwf]
    | feedNoise x =>
      cases henc
      simp [decodeFeed, faState_zero (of_decide_eq_true hsel), (wf_feedNoise_iff _).1 hwf]
    | feedCmd x =>
      cases henc
      simp [decodeFeed, faState_one (of_decide_eq_true hsel)]
    | feedLen x =>
      cases henc
      simp [decodeFeed, faState_two (of_decide_eq_true hsel)]
    | feedPay x | feedDrop x =>
      cases henc
      simp only [selectedIn, Bool.and_eq_true, Bool.not_eq_true', decide_eq_true_eq, decide_eq_false_iff_not] at hsel
      simp [decodeFeed, faState_pay hsel.1, hsel.2]
    | setRgb | setCh1 | setCh2 | setCh3 | auxOn | auxOff | colorNop x | auxNop x => simp [encode] at henc

/-- Settles O22: each row's well-formedness and selection, written out. -/
theorem feedDecodingFollowsTheState : Obligations.FeedDecodingFollowsTheState := by
  intro c b
  refine ⟨?_, ?_, ?_, ?_, ?_, ?_⟩ <;> refine (decodeFeed_eq_iff rfl).trans ?_
  · rw [wf_feedApp_iff, isMarker_iff, and_comm, selectedIn, decide_eq_true_iff]
  · rw [wf_feedNoise_iff, isMarker_eq_false_iff, and_comm, selectedIn, decide_eq_true_iff]
  · simp [Instr.wf, selectedIn]
  · simp [Instr.wf, selectedIn]
  · simp [Instr.wf, selectedIn]
  · simp [Instr.wf, selectedIn]

/-! ### Commands -/

/-- All that the dispatcher's decoder can answer, with the header of each row (R77). -/
theorem decodeCommand_cases (app cmd : Byte) :
    (app = 0xA0#8 ∧ cmd = 0x00#8 ∧ decodeCommand app cmd = .setRgb) ∨
    (app = 0xA0#8 ∧ cmd = 0x01#8 ∧ decodeCommand app cmd = .setCh1) ∨
    (app = 0xA0#8 ∧ cmd = 0x02#8 ∧ decodeCommand app cmd = .setCh2) ∨
    (app = 0xA0#8 ∧ cmd = 0x03#8 ∧ decodeCommand app cmd = .setCh3) ∨
    (app = 0xB0#8 ∧ cmd = 0x01#8 ∧ decodeCommand app cmd = .auxOn) ∨
    (app = 0xB0#8 ∧ cmd = 0x02#8 ∧ decodeCommand app cmd = .auxOff) ∨
    (app = 0xA0#8 ∧ 4 ≤ cmd.toNat ∧ decodeCommand app cmd = .colorNop cmd) ∨
    (app ≠ 0xA0#8 ∧ (app = 0xB0#8 → cmd.toNat = 0 ∨ 3 ≤ cmd.toNat) ∧ decodeCommand app cmd = .auxNop cmd) := by
  unfold decodeCommand
  simp only [opcode_eq_iff]
  simp only [← BitVec.toNat_inj, BitVec.toNat_ofNat, ne_eq]
  split_ifs <;> simp only [and_false, and_true, or_false, false_or] <;> omega

/-- What the dispatcher's decoder answers to a marker header is well formed and encoded to it. -/
theorem decodeCommand_sound {app : Byte} (happ : isMarker app = true) (cmd : Byte) :
    (decodeCommand app cmd).instr.wf = true ∧ encode (decodeCommand app cmd).instr = [app, cmd] := by
  rcases decodeCommand_cases app cmd with ⟨rfl, rfl, e⟩ | ⟨rfl, rfl, e⟩ | ⟨rfl, rfl, e⟩ | ⟨rfl, rfl, e⟩ |
    ⟨rfl, rfl, e⟩ | ⟨rfl, rfl, e⟩ | ⟨rfl, hcmd, e⟩ | ⟨hne, hcmd, e⟩
  case inr.inr.inr.inr.inr.inr.inl => rw [e]; exact ⟨decide_eq_true hcmd, rfl⟩
  case inr.inr.inr.inr.inr.inr.inr =>
    obtain rfl : app = 0xB0#8 := ((isMarker_iff app).1 happ).resolve_left hne
    rw [e]
    exact ⟨by simpa [Command.instr, Instr.wf] using hcmd rfl, rfl⟩
  all_goals rw [e]; exact ⟨rfl, rfl⟩

/-- A command is decoded from the header it is encoded to. -/
theorem decodeCommand_encode {app cmd : Byte} {k : Command} (hwf : k.instr.wf = true)
    (henc : encode k.instr = [app, cmd]) : decodeCommand app cmd = k := by
  cases k with
  | colorNop x =>
    cases henc
    exact decodeCommand_colorNop (of_decide_eq_true hwf)
  | auxNop x =>
    cases henc
    exact decodeCommand_auxNop (by simpa [Command.instr, Instr.wf] using hwf)
  | setRgb | setCh1 | setCh2 | setCh3 | auxOn | auxOff => cases henc; rfl

/-- A marker header is decoded to a command exactly where the command admits its operand and is encoded to the header
(R77). -/
theorem decodeCommand_eq_iff {app : Byte} (happ : isMarker app = true) (cmd : Byte) (k : Command) :
    decodeCommand app cmd = k ↔ k.instr.wf = true ∧ encode k.instr = [app, cmd] := by
  refine ⟨?_, fun ⟨hwf, henc⟩ => decodeCommand_encode hwf henc⟩
  rintro rfl
  exact decodeCommand_sound happ cmd

/-- Settles O23: each command's encoding and well-formedness, written out. -/
theorem commandMapDecodes : Obligations.CommandMapDecodes := by
  intro app cmd happ
  have hiff := decodeCommand_eq_iff ((isMarker_iff app).2 happ) cmd
  refine ⟨?_, ?_, ?_, ?_, ?_, ?_, fun c => ?_, fun c => ?_⟩ <;> refine (hiff _).trans ?_
  case refine_7 | refine_8 =>
    simp only [Command.instr, Instr.wf, encode, List.cons.injEq, and_true, Bool.or_eq_true, decide_eq_true_eq]
    constructor
    · rintro ⟨h, rfl, rfl⟩
      exact ⟨rfl, rfl, h⟩
    · rintro ⟨rfl, rfl, h⟩
      exact ⟨h, rfl, rfl⟩
  all_goals simp [Command.instr, Instr.wf, encode, eq_comm (b := app), eq_comm (b := cmd)]

/-! ### The round trips -/

/-- An instruction is a FEED operation of one byte or a dispatcher's command. -/
theorem instr_cases (i : Instr) : (∃ b, encode i = [b]) ∨ ∃ k : Command, i = k.instr := by
  cases i with
  | feedApp b | feedNoise b | feedCmd b | feedLen b | feedPay b | feedDrop b => exact .inl ⟨b, rfl⟩
  | setRgb => exact .inr ⟨.setRgb, rfl⟩
  | setCh1 => exact .inr ⟨.setCh1, rfl⟩
  | setCh2 => exact .inr ⟨.setCh2, rfl⟩
  | setCh3 => exact .inr ⟨.setCh3, rfl⟩
  | auxOn => exact .inr ⟨.auxOn, rfl⟩
  | auxOff => exact .inr ⟨.auxOff, rfl⟩
  | colorNop c => exact .inr ⟨.colorNop c, rfl⟩
  | auxNop c => exact .inr ⟨.auxNop c, rfl⟩

/-- A command is encoded to a marker header. -/
theorem encode_command (k : Command) : ∃ app cmd, encode k.instr = [app, cmd] ∧ isMarker app = true := by
  cases k <;> exact ⟨_, _, rfl, by decide⟩

/-- A command's row has no condition on the state (R77). -/
theorem selectedIn_command (c : FeedCtx) (k : Command) : selectedIn c k.instr = true := by
  cases k <;> rfl

/-- Settles O24, by the format: one byte to the assembler's decoder, a header to the dispatcher's. -/
theorem decodeOfEncodeIsTheInstruction : Obligations.DecodeOfEncodeIsTheInstruction := by
  intro c i hwf hsel
  rcases instr_cases i with ⟨b, henc⟩ | ⟨k, rfl⟩
  · rw [henc, decode, (decodeFeed_eq_iff henc).2 ⟨hwf, hsel⟩]
  · obtain ⟨app, cmd, henc, happ⟩ := encode_command k
    rw [henc, decode, if_pos happ, decodeCommand_encode hwf henc]

/-- Settles O25, by the number of bytes: the two decoders are sound, and no other number is accepted. -/
theorem encodeOfDecodeIsTheBytes : Obligations.EncodeOfDecodeIsTheBytes := by
  intro c bytes i h
  match bytes with
  | [] => simp [decode] at h
  | [b] =>
    cases h
    obtain ⟨hwf, hsel, henc⟩ := decodeFeed_sound c b
    exact ⟨henc, hwf, hsel⟩
  | [app, cmd] =>
    rw [decode] at h
    split at h
    next happ =>
      cases h
      obtain ⟨hwf, henc⟩ := decodeCommand_sound happ cmd
      exact ⟨henc, hwf, selectedIn_command c _⟩
    next => cases h
  | _ :: _ :: _ :: _ => simp [decode] at h

/-- Settles O26: seven closed words, each evaluated through its decoder. -/
theorem writtenOutWordsDecode : Obligations.WrittenOutWordsDecode :=
  ⟨rfl, rfl, rfl, rfl, rfl, rfl, rfl⟩

end Sys2Proof.Proofs.Codec

/-! SUPPORT. Steps (spec/00_scope.md R9, spec/20_memory.md R57 to R63): what a step can do by the kind of its event,
what taking a frame's byte leaves as it was, and the facts of one step that follow from these two. -/

namespace Sys2Proof.Proofs.Step

open Sys2Proof Sys2Proof.Machine
open Sys2Proof.Proofs.Memory (exec_command eachByteIsConsumedOnce payTaken_cell_same payTaken_cell_other
  cnt_lt_capacity_of_feedPay)
open Sys2Proof.Proofs.Encoding (feedInstr_eq_feedPay)
open Sys2Proof.Proofs.FrameAssembler (completeFrame_of_open completeFrame_of_complete)
open Sys2Proof.Proofs.Dispatcher (exec_of_writes)

/-! ### The four kinds of step -/

/-- Settles O34: the wait answers the state itself, and a step over an event is O33's. -/
theorem everyStepAnswersANextState : Obligations.EveryStepAnswersANextState := by
  intro s
  rcases input_cases s with hnil | ⟨e, rest, hi⟩
  · exact ⟨s, step_nil hnil⟩
  · obtain ⟨t, hs, -⟩ := eachByteIsConsumedOnce s e rest hi
    exact ⟨t, hs⟩

/-- All that a step can do without a byte, and that a byte is all that is left. -/
theorem step_cases {s t : State} (hs : step s = .next t) :
    (s.input = [] ∧ t = s) ∨
    (∃ rest, s.input = .readError :: rest ∧ t = sourceStutter (takeEvent s rest)) ∨
    (∃ rest, s.input = .reset :: rest ∧ t = resetBlock (takeEvent s rest)) ∨
    ∃ b rest, s.input = .byte b :: rest := by
  rcases input_cases s with hnil | ⟨e, rest, hi⟩
  · cases (step_nil hnil).symm.trans hs
    exact .inl ⟨hnil, rfl⟩
  · cases e with
    | byte b => exact .inr (.inr (.inr ⟨b, rest, hi⟩))
    | readError =>
      cases (step_readError hi).symm.trans hs
      exact .inr (.inl ⟨rest, hi, rfl⟩)
    | reset =>
      cases (step_reset hi).symm.trans hs
      exact .inr (.inr (.inl ⟨rest, hi, rfl⟩))

/-- Settles O28: a byte alone is decoded by the assembler's decoder. -/
theorem stepRunsTheDecodedInstruction : Obligations.StepRunsTheDecodedInstruction := by
  intro s b rest i hi hd
  cases hd
  exact step_byte hi

/-- Settles O30: the stutter, on the state the failure is taken in. -/
theorem sourceErrorStutters : Obligations.SourceErrorStutters :=
  fun _ _ hi => step_readError hi

/-- Settles O31: the fields of the state `resetBlock` answers. -/
theorem resetDiscardsTheFrame : Obligations.ResetDiscardsTheFrame :=
  fun _ _ hi => ⟨_, step_reset hi, rfl, rfl, rfl, rfl, rfl, rfl, rfl, rfl, rfl, rfl,
    fun _ => cell_of_unread (memory_read_nil _)⟩

/-- Settles O32: the fields of `State.powerOn`, whose buffer lists no cell. -/
theorem powerOnStateIsIdle : Obligations.PowerOnStateIsIdle := by
  refine ⟨fun p d => ⟨_, rfl, rfl, rfl, rfl, rfl, rfl, rfl, rfl, rfl, rfl, fun i => ?_⟩, _, rfl, fun ch => ?_⟩
  · exact cell_of_unread (memory_read_nil i)
  · cases ch <;> rfl

/-! ### A byte of LEN or of the payload, before the completion test -/

theorem capacity_eq_of_par {u w : State} (h : w.par = u.par) : w.capacity = u.capacity :=
  congrArg (fun p : Params => p.cap.cells) h

/-- `w` is `u` with the byte `b` taken by FEED_LEN, FEED_PAY or FEED_DROP, as `byte_step_cases` has it. -/
def ByteTaken (b : Byte) (u w : State) : Prop :=
  (u.pos.toNat = 2 ∧ w = lenTaken b u) ∨
  (3 ≤ u.pos.toNat ∧ u.cnt.toNat < u.capacity ∧ w = payTaken b u) ∨
  (3 ≤ u.pos.toNat ∧ u.capacity ≤ u.cnt.toNat ∧ w = dropTaken b u)

/-- What two states share when the second has taken one more byte of a frame. -/
structure SameFrame (u w : State) : Prop where
  app : w.app = u.app
  cmd : w.cmd = u.cmd
  par : w.par = u.par
  duty : w.duty = u.duty
  input : w.input = u.input
  frame : w.out.frame = u.out.frame
  writes : w.out.writes = u.out.writes

theorem ByteTaken.sameFrame {b : Byte} {u w : State} (h : ByteTaken b u w) : SameFrame u w := by
  rcases h with ⟨-, rfl⟩ | ⟨-, -, rfl⟩ | ⟨-, -, rfl⟩ <;> exact ⟨rfl, rfl, rfl, rfl, rfl, rfl, rfl⟩

theorem ByteTaken.capacity {b : Byte} {u w : State} (h : ByteTaken b u w) : w.capacity = u.capacity :=
  capacity_eq_of_par h.sameFrame.par

theorem ByteTaken.two_le_pos {b : Byte} {u w : State} (h : ByteTaken b u w) : 2 ≤ u.pos.toNat := by
  rcases h with ⟨hpos, -⟩ | ⟨hpos, -⟩ | ⟨hpos, -⟩ <;> omega

/-- The length in force: the byte itself at position 2. -/
theorem ByteTaken.len {b : Byte} {u w : State} (h : ByteTaken b u w) :
    w.len = if u.pos.toNat = 2 then b else u.len := by
  rcases h with ⟨hpos, rfl⟩ | ⟨hpos, -, rfl⟩ | ⟨hpos, -, rfl⟩
  · rw [if_pos hpos]; rfl
  · rw [if_neg (by omega)]; rfl
  · rw [if_neg (by omega)]; rfl

theorem ByteTaken.pos {b : Byte} {u w : State} (h : ByteTaken b u w) : w.pos = u.pos + 1#9 := by
  rcases h with ⟨hpos, rfl⟩ | ⟨-, -, rfl⟩ | ⟨-, -, rfl⟩
  · rw [BitVec.eq_of_toNat_eq (y := 2#9) hpos]; rfl
  · rfl
  · rfl

/-- The completion test on the state before the byte (R110); the 9-bit sum at position 511 meets no length. -/
theorem ByteTaken.complete_iff {b : Byte} {u w : State} (h : ByteTaken b u w) :
    w.pos.toNat = w.len.toNat + 3 ↔
      u.pos.toNat + 1 = (if u.pos.toNat = 2 then b.toNat else u.len.toNat) + 3 := by
  have hlen : w.len.toNat = if u.pos.toNat = 2 then b.toNat else u.len.toNat := by
    rw [h.len, apply_ite BitVec.toNat]
  have hlt := w.len.isLt
  rw [h.pos, BitVec.toNat_add, ← hlen]
  simp only [BitVec.toNat_ofNat]
  omega

/-- `byte_step_cases` with the byte of a frame taken as one case. -/
theorem byte_step_taken {s t : State} {b : Byte} {rest : List InputEvent} (hi : s.input = .byte b :: rest)
    (hs : step s = .next t) :
    (s.pos.toNat = 0 ∧ (b = 0xA0#8 ∨ b = 0xB0#8) ∧ t = { takeEvent s rest with app := b, pos := 1#9 }) ∨
    (s.pos.toNat = 0 ∧ b ≠ 0xA0#8 ∧ b ≠ 0xB0#8 ∧ t = raise (.noise b) (takeEvent s rest)) ∨
    (s.pos.toNat = 1 ∧ t = { takeEvent s rest with cmd := b, pos := 2#9 }) ∨
    ∃ w, ByteTaken b (takeEvent s rest) w ∧
      ((w.pos.toNat = w.len.toNat + 3 ∧ t = afterFrame w) ∨ (w.pos.toNat ≠ w.len.toNat + 3 ∧ t = w)) :=
  byte_step_cases hi hs

/-- A byte step completes a frame it has taken the last byte of, or completes none. -/
theorem byte_step_frame_cases {s t : State} {b : Byte} {rest : List InputEvent} (hi : s.input = .byte b :: rest)
    (hs : step s = .next t) :
    (∃ w, ByteTaken b (takeEvent s rest) w ∧ w.pos.toNat = w.len.toNat + 3 ∧ t = afterFrame w) ∨
    (t.out.frame = none ∧ t.out.writes = [] ∧ t.duty = s.duty) := by
  rcases byte_step_taken hi hs with ⟨-, -, rfl⟩ | ⟨-, -, -, rfl⟩ | ⟨-, rfl⟩ | ⟨w, hw, ⟨hdone, rfl⟩ | ⟨-, rfl⟩⟩
  · exact .inr ⟨rfl, rfl, rfl⟩
  · exact .inr ⟨rfl, rfl, rfl⟩
  · exact .inr ⟨rfl, rfl, rfl⟩
  · exact .inl ⟨w, hw, hdone, rfl⟩
  · have hsame := hw.sameFrame
    exact .inr ⟨hsame.frame, hsame.writes, hsame.duty⟩

/-! ### A command short of its payload -/

/-- A command short of its payload writes nothing (R142). -/
theorem commandWrites_of_short {c : Command} {s : State} (h : s.cnt.toNat < requiredPayload c) :
    commandWrites c s = [] := by
  cases c with
  | setRgb | setCh1 | setCh2 | setCh3 => exact if_pos h
  | auxOn | auxOff | colorNop _ | auxNop _ => exact absurd h (Nat.not_lt_zero _)

/-- A command short of its payload raises UNDERRUN alone (R142). -/
theorem commandConds_of_short {c : Command} {s : State} (h : s.cnt.toNat < requiredPayload c) :
    commandConds c s = [.underrun s.app s.cmd s.len s.cnt] := by
  cases c with
  | setRgb | setCh1 | setCh2 | setCh3 => exact if_pos h
  | auxOn | auxOff | colorNop _ | auxNop _ => exact absurd h (Nat.not_lt_zero _)

/-- No command requires more than the least legal capacity (R11, R77). -/
theorem requiredPayload_le_three (c : Command) : requiredPayload c ≤ 3 := by
  cases c <;> simp [requiredPayload]

/-! ### The parameters, the position and the sink -/

theorem byte_step_par {s t : State} {b : Byte} {rest : List InputEvent} (hi : s.input = .byte b :: rest)
    (hs : step s = .next t) : t.par = s.par := by
  rcases byte_step_taken hi hs with ⟨-, -, rfl⟩ | ⟨-, -, -, rfl⟩ | ⟨-, rfl⟩ | ⟨w, hw, ⟨-, rfl⟩ | ⟨-, rfl⟩⟩
  · rfl
  · rfl
  · rfl
  · exact hw.sameFrame.par
  · exact hw.sameFrame.par

/-- Settles O42, by the kind of event. -/
theorem parametersAreConstant : Obligations.ParametersAreConstant := by
  intro s t hs
  rcases step_cases hs with ⟨-, rfl⟩ | ⟨rest, -, rfl⟩ | ⟨rest, -, rfl⟩ | ⟨b, rest, hi⟩
  · rfl
  · rfl
  · rfl
  · exact byte_step_par hi hs

/-- The position after a byte: the next one, or Idle. -/
theorem byte_step_pos {s t : State} {b : Byte} {rest : List InputEvent} (hi : s.input = .byte b :: rest)
    (hs : step s = .next t) : t.pos = s.pos + 1#9 ∨ t.pos = 0#9 := by
  rcases byte_step_taken hi hs with ⟨hpos, -, rfl⟩ | ⟨hpos, -, -, rfl⟩ | ⟨hpos, rfl⟩ | ⟨w, hw, ⟨-, rfl⟩ | ⟨-, rfl⟩⟩
  · rw [BitVec.eq_of_toNat_eq (y := 0#9) hpos]; exact .inl rfl
  · exact .inr (BitVec.eq_of_toNat_eq hpos)
  · rw [BitVec.eq_of_toNat_eq (y := 1#9) hpos]; exact .inl rfl
  · exact .inr rfl
  · exact .inl hw.pos

/-- Settles O40: a byte, the other kinds of event, and a command's own meaning. -/
theorem positionAdvancesByOneOrReturnsToIdle : Obligations.PositionAdvancesByOneOrReturnsToIdle := by
  refine ⟨fun _ _ _ _ => byte_step_pos, fun s t hs hno => ?_, fun c s => ⟨_, exec_command c s, afterCommand_pos c s⟩⟩
  rcases step_cases hs with ⟨-, rfl⟩ | ⟨rest, -, rfl⟩ | ⟨rest, -, rfl⟩ | ⟨b, rest, hi⟩
  · exact .inl rfl
  · exact .inl rfl
  · exact .inr rfl
  · exact absurd hi (hno b rest)

theorem byte_step_duty {s t : State} {b : Byte} {rest : List InputEvent} (hi : s.input = .byte b :: rest)
    (hs : step s = .next t) : t.duty = applyWrites s.duty t.out.writes := by
  rcases byte_step_frame_cases hi hs with ⟨w, hw, -, rfl⟩ | ⟨-, hwrites, hduty⟩
  · have hsame := hw.sameFrame
    rw [afterFrame_duty, afterFrame_writes, hsame.duty, hsame.writes]
    rfl
  · rw [hwrites, hduty, applyWrites_nil]

/-- Settles O43: a byte's writes are its command's; the other events write nothing. -/
theorem sinkFollowsTheWritesInOrder : Obligations.SinkFollowsTheWritesInOrder := by
  intro s e rest hi
  obtain ⟨t, hs⟩ := everyStepAnswersANextState s
  refine ⟨t, hs, ?_⟩
  cases e with
  | byte b => exact byte_step_duty hi hs
  | readError => cases (step_readError hi).symm.trans hs; rfl
  | reset => cases (step_reset hi).symm.trans hs; rfl

/-- Settles O44: the laws of the four duty cells. -/
theorem sinkWriteSetsOneChannel : Obligations.SinkWriteSetsOneChannel :=
  fun ch v s => ⟨_, rfl, dutyCells_get_set_same s.duty ch v, fun _ h => dutyCells_get_set_other s.duty v h, rfl, rfl⟩

/-! ### FEED_PAY -/

/-- Settles O6: the byte's own cell and the others, then the completion test's two outcomes. -/
theorem feedPayAppendsTheByte : Obligations.FeedPayAppendsTheByte := by
  intro s b hfree
  refine ⟨fun hpos => feedInstr_eq_feedPay hpos hfree b, payTaken b s, payTaken_cell_same b s,
    fun j hj => payTaken_cell_other b s hj, rfl, fun hopen => ?_, fun hdone => ?_⟩
  · exact (execFeedPay_eq hfree).trans (completeFrame_of_open hopen)
  · obtain ⟨t, hrun, hcomplete⟩ := completeFrame_of_complete hdone
    exact ⟨t, hrun, (execFeedPay_eq hfree).trans hcomplete⟩

/-- Settles O7: the buffer's write refuses an index that is no cell, and the row asks for a free one. -/
theorem feedPayWithoutAFreeCellStops : Obligations.FeedPayWithoutAFreeCellStops := by
  intro s b hfull
  refine ⟨?_, fun hpay => Nat.not_le.2 (cnt_lt_capacity_of_feedPay hpay) hfull⟩
  have hfault : bufWrite s.cnt.toNat b s = .fault (.noSuchCell s.cnt.toNat) := if_neg (Nat.not_lt.2 hfull)
  change execFeedPay b s = _
  rw [execFeedPay, hfault, andThen_fault]

/-! ### Scaling and halving -/

/-- Settles O20: the scaling step is at most 257, and 255 times it at most the maximum (R141). -/
theorem scalingIsExactAndBounded : Obligations.ScalingIsExactAndBounded := by
  intro m v
  have hm := m.isLt
  have hv : v.toNat ≤ 255 := Nat.le_of_lt_succ v.isLt
  refine ⟨scale_toNat m v, ?_, by omega⟩
  calc (scale m v).toNat = m.toNat / 255 * v.toNat := scale_toNat m v
    _ ≤ m.toNat / 255 * 255 := Nat.mul_le_mul_left _ hv
    _ ≤ m.toNat := Nat.div_mul_le_self _ _

/-- Settles O21, each law on the natural number that `scale_toNat` gives. -/
theorem scalingLaws : Obligations.ScalingLaws := by
  intro m
  have htop : (scale m 0xFF#8).toNat + m.toNat % 255 = m.toNat := by
    rw [scale_toNat]
    exact Nat.div_add_mod' m.toNat 255
  refine ⟨?_, fun v w h => ?_, ?_, htop, fun hm v => ?_⟩
  · exact BitVec.eq_of_toNat_eq (scale_toNat m _)
  · rw [scale_toNat, scale_toNat]
    exact Nat.mul_le_mul_left _ h
  · rw [← BitVec.toNat_inj]
    omega
  · apply BitVec.eq_of_toNat_eq
    rw [scale_toNat, Nat.div_eq_of_lt hm, Nat.zero_mul]
    rfl

/-- Settles O11: AUX_ON has one write, of the halved maximum, and no condition. -/
theorem auxOnWritesHalfTheMaximum : Obligations.AuxOnWritesHalfTheMaximum := by
  refine ⟨rfl, fun s => ⟨halfDuty s.par.maxDuty, ?_, ?_, ?_, exec_of_writes (c := .auxOn) rfl rfl⟩⟩
  all_goals rw [halfDuty_toNat]; omega

end Sys2Proof.Proofs.Step

/-! SUPPORT. What every step keeps (spec/10_state.md R24, R25; spec/20_memory.md R50, R52): the invariant I1 to I5,
with the count it gives a completed frame, and the buffer's canonical form. -/

namespace Sys2Proof.Proofs.Invariant

open Sys2Proof Sys2Proof.Machine
open Sys2Proof.Proofs.Memory (lenTaken_cnt dropTaken_cnt payTaken_cnt_toNat)
open Sys2Proof.Proofs.FrameAssembler (cnt_eq_zero_of_inv)
open Sys2Proof.Proofs.Step

/-! ### I1 to I5 -/

/-- At Idle with nothing stored, and up to the LEN byte behind a marker, a state is legal. -/
theorem inv_of_header {s : State} (hpos : s.pos.toNat ≤ 2) (hcnt : s.cnt = 0#8)
    (happ : 1 ≤ s.pos.toNat → s.app = 0xA0#8 ∨ s.app = 0xB0#8) : s.Inv := by
  have hzero : s.cnt.toNat = 0 := by simp [hcnt]
  exact ⟨.inl hpos, fun _ => hzero, fun h => by omega, happ, by omega⟩

theorem inv_of_idle {s : State} (hpos : s.pos = 0#9) (hcnt : s.cnt = 0#8) : s.Inv :=
  inv_of_header (by simp [hpos]) hcnt fun h => by simp [hpos] at h

/-- What holds between a byte taken and the completion test: I3 and I4, and I1 up to one byte more. -/
structure PayloadCounted (w : State) : Prop where
  three_le_pos : 3 ≤ w.pos.toNat
  pos_le : w.pos.toNat ≤ w.len.toNat + 3
  cnt : w.cnt.toNat = min (w.pos.toNat - 3) w.capacity
  app : w.app = 0xA0#8 ∨ w.app = 0xB0#8

/-- In a legal state the position does not wrap (R112). -/
theorem pos_succ_toNat_of_inv {u : State} (h : u.Inv) : (u.pos + 1#9).toNat = u.pos.toNat + 1 := by
  obtain ⟨hI1, -⟩ := h
  have hlen := u.len.isLt
  exact BitVec.toNat_add_of_lt (y := 1#9) (by simp; omega)

/-- The count after the byte: one per payload byte, up to the capacity. -/
theorem byteTaken_cnt {b : Byte} {u w : State} (h : u.Inv) (hw : ByteTaken b u w) :
    w.cnt.toNat = min (u.pos.toNat - 2) u.capacity := by
  obtain ⟨-, hI2, hI3, -, -⟩ := h
  rcases hw with ⟨hpos, rfl⟩ | ⟨hpos, hfree, rfl⟩ | ⟨hpos, hfull, rfl⟩
  · rw [lenTaken_cnt, hI2 (by omega), hpos, Nat.sub_self, Nat.zero_min]
  · have hI3 := hI3 hpos
    rw [payTaken_cnt_toNat b hfree]
    omega
  · have hI3 := hI3 hpos
    rw [dropTaken_cnt]
    omega

/-- The byte does not lead past the frame's end. -/
theorem byteTaken_pos_le {b : Byte} {u w : State} (h : u.Inv) (hw : ByteTaken b u w) :
    u.pos.toNat ≤ w.len.toNat + 2 := by
  obtain ⟨hI1, -⟩ := h
  have htwo := hw.two_le_pos
  rw [hw.len]
  split <;> omega

theorem byteTaken_counted {b : Byte} {u w : State} (h : u.Inv) (hw : ByteTaken b u w) : PayloadCounted w := by
  have htwo := hw.two_le_pos
  have hpos : w.pos.toNat = u.pos.toNat + 1 := hw.pos ▸ pos_succ_toNat_of_inv h
  have hle := byteTaken_pos_le h hw
  refine ⟨by omega, by omega, ?_, ?_⟩
  · rw [byteTaken_cnt h hw, hpos, hw.capacity]
    rfl
  · obtain ⟨-, -, -, hI4, -⟩ := h
    rw [hw.sameFrame.app]
    exact hI4 (by omega)

/-- Where the completion test fails, the frame is open and the state legal. -/
theorem PayloadCounted.inv_of_open {w : State} (h : PayloadCounted w) (hopen : w.pos.toNat ≠ w.len.toNat + 3) :
    w.Inv := by
  have hpos := h.three_le_pos
  have hle := h.pos_le
  have hcnt := h.cnt
  exact ⟨.inr ⟨hpos, by omega⟩, fun h2 => by omega, fun _ => hcnt, fun _ => h.app, by omega⟩

/-- Where it holds, the count is that of R121. -/
theorem PayloadCounted.cnt_of_complete {w : State} (h : PayloadCounted w) (hdone : w.pos.toNat = w.len.toNat + 3) :
    w.cnt.toNat = min w.len.toNat w.capacity := by
  rw [h.cnt, hdone, Nat.add_sub_cancel]

theorem byte_step_inv {s t : State} {b : Byte} {rest : List InputEvent} (h : s.Inv)
    (hi : s.input = .byte b :: rest) (hs : step s = .next t) : t.Inv := by
  rcases byte_step_taken hi hs with ⟨hpos, hb, rfl⟩ | ⟨hpos, -, -, rfl⟩ | ⟨hpos, rfl⟩ |
    ⟨w, hw, ⟨-, rfl⟩ | ⟨hopen, rfl⟩⟩
  · have hcnt := cnt_eq_zero_of_inv h (by omega)
    exact inv_of_header (by simp) hcnt fun _ => hb
  · exact h
  · have hcnt := cnt_eq_zero_of_inv h (by omega)
    obtain ⟨-, -, -, hI4, -⟩ := h
    exact inv_of_header (by simp) hcnt fun _ => hI4 (by omega)
  · exact inv_of_idle (afterFrame_pos w) (afterFrame_cnt w)
  · exact (byteTaken_counted (u := takeEvent s rest) h hw).inv_of_open hopen

/-- Settles O35, by the kind of event. -/
theorem everyStepKeepsTheInvariant : Obligations.EveryStepKeepsTheInvariant := by
  intro s t h hs
  rcases step_cases hs with ⟨-, rfl⟩ | ⟨rest, -, rfl⟩ | ⟨rest, -, rfl⟩ | ⟨b, rest, hi⟩
  · exact h
  · exact h
  · exact inv_of_idle rfl rfl
  · exact byte_step_inv h hi hs

/-- Settles O36: both states are at Idle with nothing stored. -/
theorem resetEstablishesTheInvariant : Obligations.ResetEstablishesTheInvariant :=
  ⟨fun _ _ => inv_of_idle rfl rfl, inv_of_idle rfl rfl⟩

/-- Settles O37: every step answers and keeps the invariant, so every run does. -/
theorem runsFromLegalStatesAreSafe : Obligations.RunsFromLegalStatesAreSafe := by
  intro s h k
  refine run_invariant (fun u hu => ?_) k h
  obtain ⟨v, hv⟩ := everyStepAnswersANextState u
  exact ⟨v, hv, everyStepKeepsTheInvariant u v hu hv⟩

/-! ### The buffer's form -/

/-- The form depends on the buffer, the count and the capacity; with fewer bytes counted it still holds. -/
theorem bufOk_of_cnt_le {s t : State} (h : s.BufOk) (hbuf : t.buf = s.buf) (hpar : t.par = s.par)
    (hcnt : t.cnt.toNat ≤ s.cnt.toNat) : t.BufOk := by
  obtain ⟨hwf, hcells, hwritten⟩ := h
  rw [State.BufOk, hbuf, capacity_eq_of_par hpar]
  exact ⟨hwf, hcells, fun i hlt => hwritten i (by omega)⟩

theorem bufOk_nil {s : State} (hbuf : s.buf = []) (hcnt : s.cnt = 0#8) : s.BufOk := by
  rw [State.BufOk, hbuf, hcnt]
  exact ⟨rfl, by simp, fun i hlt => by simp at hlt⟩

/-- FEED_PAY lists the cell at the count, and so every cell below the new count. -/
theorem payTaken_bufOk {b : Byte} {u : State} (h : u.BufOk) (hfree : u.cnt.toNat < u.capacity) :
    (payTaken b u).BufOk := by
  obtain ⟨hwf, hcells, hwritten⟩ := h
  refine ⟨memory_wf_write _ _ hwf, fun c hc => ?_, fun i hlt => ?_⟩
  · rcases memory_mem_write hc with rfl | hold
    · exact hfree
    · exact hcells c hold
  · rw [payTaken_cnt_toNat b hfree] at hlt
    by_cases heq : i = u.cnt.toNat
    · simp [payTaken, heq]
    · rw [payTaken, memory_read_write_other _ b heq]
      exact hwritten i (by omega)

theorem byteTaken_bufOk {b : Byte} {u w : State} (h : u.BufOk) (hw : ByteTaken b u w) : w.BufOk := by
  rcases hw with ⟨-, rfl⟩ | ⟨-, hfree, rfl⟩ | ⟨-, -, rfl⟩
  · exact h
  · exact payTaken_bufOk h hfree
  · exact h

theorem byte_step_bufOk {s t : State} {b : Byte} {rest : List InputEvent} (h : s.BufOk)
    (hi : s.input = .byte b :: rest) (hs : step s = .next t) : t.BufOk := by
  rcases byte_step_taken hi hs with ⟨-, -, rfl⟩ | ⟨-, -, -, rfl⟩ | ⟨-, rfl⟩ | ⟨w, hw, ⟨-, rfl⟩ | ⟨-, rfl⟩⟩
  · exact h
  · exact h
  · exact h
  · have hbuf := byteTaken_bufOk (u := takeEvent s rest) h hw
    exact bufOk_of_cnt_le hbuf (afterFrame_buf w) (afterFrame_par w) (Nat.zero_le _)
  · exact byteTaken_bufOk (u := takeEvent s rest) h hw

/-- Settles O38, by the kind of event. -/
theorem everyStepKeepsTheBufferForm : Obligations.EveryStepKeepsTheBufferForm := by
  intro s t h hs
  rcases step_cases hs with ⟨-, rfl⟩ | ⟨rest, -, rfl⟩ | ⟨rest, -, rfl⟩ | ⟨b, rest, hi⟩
  · exact h
  · exact h
  · exact bufOk_nil rfl rfl
  · exact byte_step_bufOk h hi hs

/-- Settles O39: neither state lists a cell or counts a byte. -/
theorem resetEstablishesTheBufferForm : Obligations.ResetEstablishesTheBufferForm :=
  ⟨fun _ _ => bufOk_nil rfl rfl, bufOk_nil rfl rfl⟩

end Sys2Proof.Proofs.Invariant

/-! SUPPORT. What never reaches an output (spec/10_state.md R26, R33; spec/20_memory.md R62): relations between two
states that every step keeps, for the sink's duties, the cells at or above the count, and the stale headers. -/

namespace Sys2Proof.Proofs.Noninterference

open Sys2Proof Sys2Proof.Machine
open Sys2Proof.Proofs.Memory (payTaken_cnt_toNat payTaken_cell_same payTaken_cell_other)
open Sys2Proof.Proofs.FrameAssembler (exec_feedApp exec_feedCmd)
open Sys2Proof.Proofs.Step (commandWrites_of_short)
open Sys2Proof.Proofs.Dispatcher (commandWrites_congr commandConds_congr)

/-! ### Two runs side by side -/

/-- Both outcomes are next states, and these are related. -/
def NextRel (R : State → State → Prop) (r r' : Res) : Prop :=
  ∃ t t' : State, r = .next t ∧ r' = .next t' ∧ R t t'

theorem NextRel.intro {R : State → State → Prop} {t t' : State} (h : R t t') : NextRel R (.next t) (.next t') :=
  ⟨t, t', rfl, rfl, h⟩

/-- What `feedInstr` and its rows' conditions read. -/
structure SameRow (u u' : State) : Prop where
  pos : u'.pos = u.pos
  cnt : u'.cnt = u.cnt
  capacity : u'.capacity = u.capacity

/-- Two states that agree on it take a byte by the same row. -/
theorem feed_cases_pair {u u' : State} (h : SameRow u u') (b : Byte) :
    (u.pos.toNat = 0 ∧ exec (feedInstr u b) u = .next { u with app := b, pos := 1#9 } ∧
      exec (feedInstr u' b) u' = .next { u' with app := b, pos := 1#9 }) ∨
    (u.pos.toNat = 0 ∧ exec (feedInstr u b) u = .next (raise (.noise b) u) ∧
      exec (feedInstr u' b) u' = .next (raise (.noise b) u')) ∨
    (u.pos.toNat = 1 ∧ exec (feedInstr u b) u = .next { u with cmd := b, pos := 2#9 } ∧
      exec (feedInstr u' b) u' = .next { u' with cmd := b, pos := 2#9 }) ∨
    (u.pos.toNat = 2 ∧ exec (feedInstr u b) u = completeFrame (lenTaken b u) ∧
      exec (feedInstr u' b) u' = completeFrame (lenTaken b u')) ∨
    (3 ≤ u.pos.toNat ∧ u.cnt.toNat < u.capacity ∧ exec (feedInstr u b) u = completeFrame (payTaken b u) ∧
      exec (feedInstr u' b) u' = completeFrame (payTaken b u')) ∨
    (3 ≤ u.pos.toNat ∧ exec (feedInstr u b) u = completeFrame (dropTaken b u) ∧
      exec (feedInstr u' b) u' = completeFrame (dropTaken b u')) := by
  have hrow : feedInstr u' b = feedInstr u b := by
    simp only [feedInstr, State.feedCtx, h.pos, h.cnt, h.capacity]
  rw [hrow]
  rcases feed_cases b u with ⟨hpos, -, e, he⟩ | ⟨hpos, -, -, e, he⟩ | ⟨hpos, e, he⟩ | ⟨hpos, e, he⟩ |
    ⟨hpos, hfree, e, he⟩ | ⟨hpos, -, e, he⟩
  · exact .inl ⟨hpos, he, by rw [e, exec_feedApp]⟩
  · exact .inr (.inl ⟨hpos, he, by rw [e]; rfl⟩)
  · exact .inr (.inr (.inl ⟨hpos, he, by rw [e, exec_feedCmd]⟩))
  · exact .inr (.inr (.inr (.inl ⟨hpos, he, by rw [e]; rfl⟩)))
  · have hfree' : u'.cnt.toNat < u'.capacity := by rw [h.cnt, h.capacity]; exact hfree
    exact .inr (.inr (.inr (.inr (.inl ⟨hpos, hfree, he, by rw [e]; exact execFeedPay_eq hfree'⟩))))
  · exact .inr (.inr (.inr (.inr (.inr ⟨hpos, he, by rw [e]; rfl⟩))))

/-- The completion test on two states at the same position of frames of the same length. -/
theorem completeFrame_rel {R : State → State → Prop} {w w' : State} (hpos : w'.pos = w.pos) (hlen : w'.len = w.len)
    (hopen : R w w') (hdone : R (afterFrame w) (afterFrame w')) :
    NextRel R (completeFrame w) (completeFrame w') := by
  rw [completeFrame_eq, completeFrame_eq, hpos, hlen]
  split
  · exact .intro hdone
  · exact .intro hopen

/-- What a relation between two states must bear for every step to keep it, by the kind of event. -/
structure KeptByEvents (R : State → State → Prop) : Prop where
  input : ∀ s s', R s s' → s'.input = s.input
  take : ∀ s s' rest, R s s' → R (takeEvent s rest) (takeEvent s' rest)
  stutter : ∀ s s', R s s' → R (sourceStutter s) (sourceStutter s')
  reset : ∀ s s', R s s' → R (resetBlock s) (resetBlock s')
  byte : ∀ u u' b, R u u' → NextRel R (exec (feedInstr u b) u) (exec (feedInstr u' b) u')

theorem KeptByEvents.step {R : State → State → Prop} (hR : KeptByEvents R) (s s' : State) (h : R s s') :
    NextRel R (Machine.step s) (Machine.step s') := by
  have hin := hR.input s s' h
  rcases input_cases s with hnil | ⟨e, rest, hi⟩
  · rw [step_nil hnil, step_nil (hin.trans hnil)]
    exact .intro h
  have hi' := hin.trans hi
  cases e with
  | byte b =>
    rw [step_byte hi, step_byte hi']
    exact hR.byte _ _ b (hR.take s s' rest h)
  | readError =>
    rw [step_readError hi, step_readError hi']
    exact .intro (hR.stutter _ _ (hR.take s s' rest h))
  | reset =>
    rw [step_reset hi, step_reset hi']
    exact .intro (hR.reset _ _ (hR.take s s' rest h))

/-! ### The sink's duties -/

/-- Two states alike in all but the sink's duties. -/
def SameButDuty (s s' : State) : Prop := ∃ d : DutyCells, s' = { s with duty := d }

theorem feed_sameButDuty {u u' : State} (b : Byte) (h : SameButDuty u u') :
    NextRel SameButDuty (exec (feedInstr u b) u) (exec (feedInstr u' b) u') := by
  obtain ⟨d, rfl⟩ := h
  have hdone (w : State) : NextRel SameButDuty (completeFrame w) (completeFrame { w with duty := d }) :=
    completeFrame_rel rfl rfl ⟨d, rfl⟩ ⟨_, rfl⟩
  rcases feed_cases_pair (u := u) (u' := { u with duty := d }) ⟨rfl, rfl, rfl⟩ b with ⟨-, e, e'⟩ | ⟨-, e, e'⟩ |
    ⟨-, e, e'⟩ | ⟨-, e, e'⟩ | ⟨-, -, e, e'⟩ | ⟨-, e, e'⟩ <;> rw [e, e']
  · exact .intro ⟨d, rfl⟩
  · exact .intro ⟨d, rfl⟩
  · exact .intro ⟨d, rfl⟩
  · exact hdone (lenTaken b u)
  · exact hdone (payTaken b u)
  · exact hdone (dropTaken b u)

theorem sameButDuty_kept : KeptByEvents SameButDuty where
  input := by rintro s _ ⟨d, rfl⟩; rfl
  take := by rintro s _ rest ⟨d, rfl⟩; exact ⟨d, rfl⟩
  stutter := by rintro s _ ⟨d, rfl⟩; exact ⟨d, rfl⟩
  reset := by rintro s _ ⟨d, rfl⟩; exact ⟨d, rfl⟩
  byte := fun _ _ b => feed_sameButDuty b

/-- Settles O45, by induction on the run with `SameButDuty`. -/
theorem sinkIsNeverReadBack : Obligations.SinkIsNeverReadBack := by
  intro s d k
  obtain ⟨t, t', ht, ht', d', rfl⟩ := run_relation sameButDuty_kept.step k ⟨d, rfl⟩
  exact ⟨t, d', ht, ht'⟩

/-! ### Cells at or above the count -/

/-- The relation with the hidden data named. -/
theorem sameButHidden_iff {s s' : State} :
    s.SameButHidden s' ↔ ∃ (m : Memory) (n : Nat), s' = { s with buf := m, draws := n } ∧
      ∀ i, i < s.cnt.toNat → ({ s with buf := m, draws := n } : State).cell i = s.cell i := by
  constructor
  · rintro ⟨h, hcells⟩
    exact ⟨s'.buf, s'.draws, h, h ▸ hcells⟩
  · rintro ⟨m, n, rfl, hcells⟩
    exact ⟨rfl, hcells⟩

/-- The writes read no cell at or above the count (R53): a command that needs such a cell is short. -/
theorem commandWrites_of_cells {c : Command} {s s' : State} (hcnt : s'.cnt = s.cnt)
    (hmax : s'.par.maxDuty = s.par.maxDuty) (hcells : ∀ i, i < s.cnt.toNat → s'.cell i = s.cell i) :
    commandWrites c s' = commandWrites c s := by
  by_cases hshort : s.cnt.toNat < requiredPayload c
  · rw [commandWrites_of_short hshort, commandWrites_of_short (hcnt.symm ▸ hshort)]
  · exact commandWrites_congr hcnt hmax fun i hi => hcells i (by omega)

/-- What a completed frame leaves, with its command's writes and conditions at the state before the emission. -/
theorem afterFrame_eq (w : State) :
    afterFrame w =
      { w with
        pos := 0#9
        cnt := 0#8
        duty := applyWrites w.duty (commandWrites (decodeCommand w.app w.cmd) w)
        out :=
          { frame := some (currentFrame w)
            writes := w.out.writes ++ commandWrites (decodeCommand w.app w.cmd) w
            conds := w.out.conds ++ commandConds (decodeCommand w.app w.cmd) w } } := rfl

/-- A completed frame leaves the hidden data as it is and shows none of it. -/
theorem afterFrame_hidden {w : State} {m : Memory} {n : Nat}
    (hcells : ∀ i, i < w.cnt.toNat → ({ w with buf := m, draws := n } : State).cell i = w.cell i) :
    afterFrame { w with buf := m, draws := n } = { afterFrame w with buf := m, draws := n } := by
  have hpayload : storedPayload { w with buf := m, draws := n } = storedPayload w := storedPayload_congr rfl hcells
  have hwrites (c : Command) : commandWrites c { w with buf := m, draws := n } = commandWrites c w :=
    commandWrites_of_cells rfl rfl hcells
  have hconds (c : Command) : commandConds c { w with buf := m, draws := n } = commandConds c w :=
    commandConds_congr rfl rfl rfl rfl
  simp only [afterFrame_eq, currentFrame, hwrites, hconds, hpayload]

/-- FEED_PAY makes the two states agree on the cell it counts. -/
theorem payTaken_hidden {u : State} {m : Memory} {n : Nat} (b : Byte) (hfree : u.cnt.toNat < u.capacity)
    (hcells : ∀ i, i < u.cnt.toNat → ({ u with buf := m, draws := n } : State).cell i = u.cell i) :
    ∀ i, i < (payTaken b u).cnt.toNat →
      (payTaken b { u with buf := m, draws := n }).cell i = (payTaken b u).cell i := by
  intro i hi
  rw [payTaken_cnt_toNat b hfree] at hi
  by_cases heq : i = u.cnt.toNat
  · subst heq
    rw [payTaken_cell_same b u]
    exact payTaken_cell_same b { u with buf := m, draws := n }
  · rw [payTaken_cell_other b u heq, ← hcells i (by omega)]
    exact payTaken_cell_other b { u with buf := m, draws := n } heq

theorem completeFrame_sameButHidden {w : State} {m : Memory} {n : Nat}
    (hcells : ∀ i, i < w.cnt.toNat → ({ w with buf := m, draws := n } : State).cell i = w.cell i) :
    NextRel State.SameButHidden (completeFrame w) (completeFrame { w with buf := m, draws := n }) := by
  refine completeFrame_rel rfl rfl (sameButHidden_iff.2 ⟨m, n, rfl, hcells⟩) ?_
  exact sameButHidden_iff.2 ⟨m, n, afterFrame_hidden hcells, fun i hi => absurd hi (Nat.not_lt_zero i)⟩

theorem feed_sameButHidden {u u' : State} (b : Byte) (h : u.SameButHidden u') :
    NextRel State.SameButHidden (exec (feedInstr u b) u) (exec (feedInstr u' b) u') := by
  obtain ⟨m, n, rfl, hcells⟩ := sameButHidden_iff.1 h
  rcases feed_cases_pair (u := u) (u' := { u with buf := m, draws := n }) ⟨rfl, rfl, rfl⟩ b with ⟨-, e, e'⟩ |
    ⟨-, e, e'⟩ | ⟨-, e, e'⟩ | ⟨-, e, e'⟩ | ⟨-, hfree, e, e'⟩ | ⟨-, e, e'⟩ <;> rw [e, e']
  · exact .intro (sameButHidden_iff.2 ⟨m, n, rfl, hcells⟩)
  · exact .intro (sameButHidden_iff.2 ⟨m, n, rfl, hcells⟩)
  · exact .intro (sameButHidden_iff.2 ⟨m, n, rfl, hcells⟩)
  · exact completeFrame_sameButHidden (w := lenTaken b u) hcells
  · exact completeFrame_sameButHidden (w := payTaken b u) (payTaken_hidden b hfree hcells)
  · exact completeFrame_sameButHidden (w := dropTaken b u) hcells

theorem sameButHidden_kept : KeptByEvents State.SameButHidden where
  input := by
    rintro s s' ⟨h, -⟩
    rw [h]
  take := by
    intro s s' rest h
    obtain ⟨m, n, rfl, hcells⟩ := sameButHidden_iff.1 h
    exact sameButHidden_iff.2 ⟨m, n, rfl, hcells⟩
  stutter := by
    intro s s' h
    obtain ⟨m, n, rfl, hcells⟩ := sameButHidden_iff.1 h
    exact sameButHidden_iff.2 ⟨m, n, rfl, hcells⟩
  reset := by
    intro s s' h
    obtain ⟨m, n, rfl, -⟩ := sameButHidden_iff.1 h
    exact sameButHidden_iff.2 ⟨[], n + 1, rfl, fun i hi => absurd hi (Nat.not_lt_zero i)⟩
  byte := fun _ _ b => feed_sameButHidden b

/-- Settles O46, by induction on the run; alike in all but the hidden bytes is alike in the outputs. -/
theorem hiddenCellsNeverReachAnOutput : Obligations.HiddenCellsNeverReachAnOutput := by
  intro s s' h k
  obtain ⟨t, t', ht, ht', hrel⟩ := run_relation sameButHidden_kept.step k h
  obtain ⟨m, n, rfl, -⟩ := sameButHidden_iff.1 hrel
  exact ⟨t, _, ht, ht', rfl, rfl, hrel⟩

/-! ### Stale headers -/

/-- The relation with the stale values named. -/
theorem sameButStale_iff {s s' : State} :
    s.SameButStale s' ↔ ∃ a c l : Byte, s' = { s with app := a, cmd := c, len := l } ∧
      (1 ≤ s.pos.toNat → a = s.app) ∧ (2 ≤ s.pos.toNat → c = s.cmd) ∧ (3 ≤ s.pos.toNat → l = s.len) := by
  constructor
  · rintro ⟨h, happ, hcmd, hlen⟩
    exact ⟨s'.app, s'.cmd, s'.len, h, happ, hcmd, hlen⟩
  · rintro ⟨a, c, l, rfl, happ, hcmd, hlen⟩
    exact ⟨rfl, happ, hcmd, hlen⟩

theorem sameButStale_refl (s : State) : s.SameButStale s :=
  ⟨rfl, fun _ => rfl, fun _ => rfl, fun _ => rfl⟩

theorem completeFrame_sameButStale (w : State) :
    NextRel State.SameButStale (completeFrame w) (completeFrame w) :=
  ⟨_, _, completeFrame_eq w, completeFrame_eq w, sameButStale_refl _⟩

/-- The three header bytes each overwrite a register before anything reads it; past them nothing is stale. -/
theorem feed_sameButStale {u u' : State} (b : Byte) (h : u.SameButStale u') :
    NextRel State.SameButStale (exec (feedInstr u b) u) (exec (feedInstr u' b) u') := by
  obtain ⟨a, c, l, rfl, happ, hcmd, hlen⟩ := sameButStale_iff.1 h
  rcases feed_cases_pair (u := u) (u' := { u with app := a, cmd := c, len := l }) ⟨rfl, rfl, rfl⟩ b with
    ⟨hpos, e, e'⟩ | ⟨hpos, e, e'⟩ | ⟨hpos, e, e'⟩ | ⟨hpos, e, e'⟩ | ⟨hpos, -, e, e'⟩ | ⟨hpos, e, e'⟩ <;> rw [e, e']
  · exact .intro (sameButStale_iff.2 ⟨b, c, l, rfl, fun _ => rfl, by simp, by simp⟩)
  · exact .intro (sameButStale_iff.2 ⟨a, c, l, rfl, happ, hcmd, hlen⟩)
  · exact .intro (sameButStale_iff.2 ⟨a, b, l, rfl, fun _ => happ (by omega), fun _ => rfl, by simp⟩)
  · obtain rfl := happ (by omega)
    obtain rfl := hcmd (by omega)
    exact completeFrame_sameButStale (lenTaken b u)
  · obtain rfl := happ (by omega)
    obtain rfl := hcmd (by omega)
    obtain rfl := hlen hpos
    exact completeFrame_sameButStale (payTaken b u)
  · obtain rfl := happ (by omega)
    obtain rfl := hcmd (by omega)
    obtain rfl := hlen hpos
    exact completeFrame_sameButStale (dropTaken b u)

theorem sameButStale_kept : KeptByEvents State.SameButStale where
  input := by
    rintro s s' ⟨h, -⟩
    rw [h]
  take := by
    intro s s' rest h
    obtain ⟨a, c, l, rfl, hstale⟩ := sameButStale_iff.1 h
    exact sameButStale_iff.2 ⟨a, c, l, rfl, hstale⟩
  stutter := by
    intro s s' h
    obtain ⟨a, c, l, rfl, hstale⟩ := sameButStale_iff.1 h
    exact sameButStale_iff.2 ⟨a, c, l, rfl, hstale⟩
  reset := by
    intro s s' h
    obtain ⟨a, c, l, rfl, -⟩ := sameButStale_iff.1 h
    exact sameButStale_refl (resetBlock s)
  byte := fun _ _ b => feed_sameButStale b

/-- Settles O47, by induction on the run; alike in all but the stale headers is alike in the outputs. -/
theorem staleHeadersNeverReachAnOutput : Obligations.StaleHeadersNeverReachAnOutput := by
  intro s s' h k
  obtain ⟨t, t', ht, ht', hrel⟩ := run_relation sameButStale_kept.step k h
  obtain ⟨a, c, l, rfl, -⟩ := sameButStale_iff.1 hrel
  exact ⟨t, _, ht, ht', rfl, rfl, hrel⟩

end Sys2Proof.Proofs.Noninterference

/-! SUPPORT. The step that completes a frame (spec/40_frame_assembler.md R110 to R121; spec/41_command_dispatcher.md
R142, R153; spec/60_exceptions.md R187): when it comes, what frame it shows, and which writes and conditions. -/

namespace Sys2Proof.Proofs.Completion

open Sys2Proof Sys2Proof.Machine
open Sys2Proof.Proofs.Dispatcher (step_of_last_byte)
open Sys2Proof.Proofs.Codec (decodeCommand_cases)
open Sys2Proof.Proofs.Step
open Sys2Proof.Proofs.Invariant (byteTaken_counted)

/-! ### When a frame is emitted -/

/-- `byte_step_frame` with the byte of a frame taken as one case. -/
theorem byte_step_completed {s t : State} {b : Byte} {rest : List InputEvent} {f : Frame}
    (hi : s.input = .byte b :: rest) (hs : step s = .next t) (hf : t.out.frame = some f) :
    ∃ w, ByteTaken b (takeEvent s rest) w ∧ w.pos.toNat = w.len.toNat + 3 ∧ t = afterFrame w ∧ f = currentFrame w :=
  byte_step_frame (s := s) hi hs hf

/-- A byte step emits a frame exactly at the frame's last byte (R110). -/
theorem byte_step_emits_iff {s t : State} {b : Byte} {rest : List InputEvent} (hi : s.input = .byte b :: rest)
    (hs : step s = .next t) :
    t.out.frame.isSome = true ↔
      2 ≤ s.pos.toNat ∧ s.pos.toNat + 1 = (if s.pos.toNat = 2 then b.toNat else s.len.toNat) + 3 := by
  constructor
  · intro hsome
    obtain ⟨f, hf⟩ := Option.isSome_iff_exists.1 hsome
    obtain ⟨w, hw, hdone, -, -⟩ := byte_step_completed hi hs hf
    exact ⟨hw.two_le_pos, hw.complete_iff.1 hdone⟩
  · rintro ⟨hpos, hlast⟩
    obtain ⟨w, hstep, -⟩ := step_of_last_byte hi hpos hlast
    cases hstep.symm.trans hs
    rfl

/-- Settles O48: the condition, and the registers of the state the completion test finds. -/
theorem frameIsEmittedExactlyAtItsLastByte : Obligations.FrameIsEmittedExactlyAtItsLastByte := by
  refine fun s t b rest hi hs => ⟨byte_step_emits_iff hi hs, fun f hf => ?_⟩
  obtain ⟨w, hw, -, rfl, rfl⟩ := byte_step_completed hi hs hf
  exact ⟨hw.sameFrame.app, hw.sameFrame.cmd, rfl, hw.len, rfl, rfl⟩

/-- Settles O54: in a legal state the two sides differ by less than 256, so they agree modulo 256 only if equal. -/
theorem eightBitComparisonCompletesTheSameFrames : Obligations.EightBitComparisonCompletesTheSameFrames := by
  intro s t b rest hinv hi hs
  rw [byte_step_emits_iff hi hs]
  obtain ⟨hI1, -⟩ := hinv
  have hb := b.isLt
  have hlen := s.len.isLt
  split <;> omega

/-! ### The emitted payload -/

theorem storedPayload_getElem? {s : State} {i : Nat} (h : i < s.cnt.toNat) :
    (storedPayload s)[i]? = some (s.cell i) := by
  simp [storedPayload, h]

/-- The count of a frame completed from a legal state (R121). -/
theorem completed_cnt {s w : State} {b : Byte} {rest : List InputEvent} (hinv : s.Inv)
    (hw : ByteTaken b (takeEvent s rest) w) (hdone : w.pos.toNat = w.len.toNat + 3) :
    w.cnt.toNat = min w.len.toNat s.capacity := by
  have hcount := byteTaken_counted (u := takeEvent s rest) hinv hw
  rw [hcount.cnt_of_complete hdone, hw.capacity, takeEvent_capacity]

/-- Settles O49: the stored payload's length and bytes, under the count of R121. -/
theorem emittedPayloadHasTheDeclaredLengthUpToCapacity :
    Obligations.EmittedPayloadHasTheDeclaredLengthUpToCapacity := by
  intro s t b rest f hinv hi hs hf
  obtain ⟨w, hw, hdone, rfl, rfl⟩ := byte_step_completed hi hs hf
  refine ⟨?_, (storedPayload_length w).symm, fun i hlt => ?_⟩
  · exact (storedPayload_length w).trans (completed_cnt hinv hw hdone)
  · exact storedPayload_getElem? (hlt.trans_eq (storedPayload_length w))

/-! ### The writes of the command map -/

/-- The first bytes of a stored payload are the first cells. -/
theorem storedPayload_starts_with_cells {s : State} {k : Nat} (h : k ≤ s.cnt.toNat) :
    ∃ p, storedPayload s = (List.range k).map s.cell ++ p := by
  obtain ⟨d, hd⟩ := Nat.exists_eq_add_of_le h
  rw [storedPayload, hd, List.range_add, List.map_append]
  exact ⟨_, rfl⟩

/-- SET_RGB's row of `tableWrites` against a payload that is the stored cells. -/
theorem tableWrites_setRgb (s : State) (happ : s.app = 0xA0#8) (hcmd : s.cmd = 0x00#8) :
    tableWrites (maxDuty s).toNat (currentFrame s) = writeNumbers (commandWrites .setRgb s) := by
  by_cases hshort : s.cnt.toNat < 3
  · have hlen : (storedPayload s).length < 3 := (storedPayload_length s).trans_lt hshort
    rw [commandWrites_of_short (c := .setRgb) hshort, currentFrame, happ, hcmd]
    match storedPayload s, hlen with
    | [], _ => rfl
    | [_], _ => rfl
    | [_, _], _ => rfl
  · obtain ⟨p, hp⟩ := storedPayload_starts_with_cells (s := s) (k := 3) (by omega)
    have hwrites : commandWrites .setRgb s = [⟨.ch1, scale (maxDuty s) (s.cell 0)⟩,
        ⟨.ch2, scale (maxDuty s) (s.cell 1)⟩, ⟨.ch3, scale (maxDuty s) (s.cell 2)⟩] := if_neg hshort
    rw [hwrites, currentFrame, happ, hcmd, hp]
    simp only [writeNumbers, List.map_cons, List.map_nil, scale_toNat]
    rfl

/-- A single-channel row of `tableWrites`, given what the row says of a payload with a byte and of one without. -/
theorem tableWrites_channel {ch : Channel} {c : Command} {s : State}
    (hc : Dispatcher.ScalesFirstByteTo ch c)
    (hcons : ∀ v p, tableWrites (maxDuty s).toNat { currentFrame s with payload := v :: p } =
      [(ch, (maxDuty s).toNat / 255 * v.toNat)])
    (hnil : tableWrites (maxDuty s).toNat { currentFrame s with payload := [] } = []) :
    tableWrites (maxDuty s).toNat (currentFrame s) = writeNumbers (commandWrites c s) := by
  obtain ⟨hreq, hfull⟩ := hc
  have hframe : currentFrame s = { currentFrame s with payload := storedPayload s } := rfl
  by_cases hshort : s.cnt.toNat < 1
  · have hp : storedPayload s = [] := List.length_eq_zero_iff.1 ((storedPayload_length s).trans (by omega))
    rw [commandWrites_of_short (hreq ▸ hshort), hframe, hp]
    exact hnil
  · obtain ⟨p, hp⟩ := storedPayload_starts_with_cells (s := s) (k := 1) (by omega)
    obtain ⟨hwrites, -⟩ := hfull s (by omega)
    rw [hwrites, hframe, hp]
    refine (hcons (s.cell 0) p).trans ?_
    simp only [writeNumbers, List.map_cons, List.map_nil, scale_toNat]

/-- A frame outside the documented rows asks for no write (R80). -/
theorem tableWrites_unlisted {m : Nat} {f : Frame}
    (h : (f.app = 0xA0#8 ∧ 4 ≤ f.cmd.toNat) ∨
      (f.app ≠ 0xA0#8 ∧ (f.app = 0xB0#8 → f.cmd.toNat = 0 ∨ 3 ≤ f.cmd.toNat))) :
    tableWrites m f = [] := by
  simp only [← BitVec.toNat_inj, BitVec.toNat_ofNat, ne_eq] at h
  unfold tableWrites
  split
  case h_7 => rfl
  all_goals omega

/-- The dispatcher's writes are the command map's, row by row (R77). -/
theorem writeNumbers_dispatch (s : State) :
    writeNumbers (commandWrites (decodeCommand s.app s.cmd) s) =
      tableWrites (maxDuty s).toNat (currentFrame s) := by
  rcases decodeCommand_cases s.app s.cmd with ⟨happ, hcmd, e⟩ | ⟨happ, hcmd, e⟩ | ⟨happ, hcmd, e⟩ |
    ⟨happ, hcmd, e⟩ | ⟨happ, hcmd, e⟩ | ⟨happ, hcmd, e⟩ | ⟨happ, hcmd, e⟩ | ⟨happ, hcmd, e⟩ <;> rw [e]
  · exact (tableWrites_setRgb s happ hcmd).symm
  · refine (tableWrites_channel Dispatcher.setCh1_scalesFirstByte ?_ ?_).symm <;>
      simp only [currentFrame, happ, hcmd] <;> intros <;> rfl
  · refine (tableWrites_channel Dispatcher.setCh2_scalesFirstByte ?_ ?_).symm <;>
      simp only [currentFrame, happ, hcmd] <;> intros <;> rfl
  · refine (tableWrites_channel Dispatcher.setCh3_scalesFirstByte ?_ ?_).symm <;>
      simp only [currentFrame, happ, hcmd] <;> intros <;> rfl
  · rw [currentFrame, happ, hcmd]
    simp only [commandWrites, writeNumbers, List.map_cons, List.map_nil, halfDuty_toNat]
    rfl
  · rw [currentFrame, happ, hcmd]
    rfl
  · exact (tableWrites_unlisted (.inl ⟨happ, hcmd⟩)).symm
  · exact (tableWrites_unlisted (.inr ⟨happ, hcmd⟩)).symm

/-- The writes of a completing step are its command's. -/
theorem completed_writes {s w : State} {b : Byte} {rest : List InputEvent} (hw : ByteTaken b (takeEvent s rest) w) :
    (afterFrame w).out.writes = commandWrites (decodeCommand w.app w.cmd) w := by
  rw [afterFrame_writes, hw.sameFrame.writes]
  rfl

/-- Settles O15: the command map for the writes, O43's argument for the sink. -/
theorem everyCompletedFrameDrivesTheSink : Obligations.EveryCompletedFrameDrivesTheSink := by
  intro s t b rest f hi hs hf
  refine ⟨?_, byte_step_duty hi hs⟩
  obtain ⟨w, hw, -, rfl, rfl⟩ := byte_step_completed hi hs hf
  have hpar : w.par = s.par := hw.sameFrame.par
  rw [completed_writes hw, writeNumbers_dispatch, maxDuty, hpar]

/-- The channels of one command's writes (R66). -/
theorem commandWrites_channels (c : Command) (s : State) :
    (commandWrites c s).map SinkWrite.ch ∈
      [[], [Channel.ch1, .ch2, .ch3], [Channel.ch1], [Channel.ch2], [Channel.ch3], [Channel.ch4]] := by
  cases c with
  | setRgb | setCh1 | setCh2 | setCh3 => simp only [commandWrites]; split <;> simp
  | auxOn | auxOff | colorNop _ | auxNop _ => simp [commandWrites]

/-- Settles O19: no frame, no write; with one, the writes of its command. -/
theorem aStepWritesForOneCommandAtMost : Obligations.AStepWritesForOneCommandAtMost := by
  intro s t b rest hi hs
  rcases byte_step_frame_cases hi hs with ⟨w, hw, -, rfl⟩ | ⟨-, hwrites, -⟩
  · refine ⟨fun hnone => absurd hnone (by simp), ?_⟩
    rw [completed_writes hw]
    exact commandWrites_channels _ w
  · exact ⟨fun _ => hwrites, by simp [hwrites]⟩

/-! ### The conditions -/

/-- A dispatch raises nothing, UNKNOWN with the header's bytes, or UNDERRUN of a short payload. -/
theorem commandConds_dispatch (s : State) :
    let cs := commandConds (decodeCommand s.app s.cmd) s
    cs = [] ∨ cs = [.unknown s.app s.cmd] ∨ (s.cnt.toNat < 3 ∧ cs = [.underrun s.app s.cmd s.len s.cnt]) := by
  intro cs
  by_cases hshort : s.cnt.toNat < requiredPayload (decodeCommand s.app s.cmd)
  · exact .inr (.inr ⟨hshort.trans_le (requiredPayload_le_three _), commandConds_of_short hshort⟩)
  · rcases decodeCommand_cases s.app s.cmd with ⟨-, -, e⟩ | ⟨-, -, e⟩ | ⟨-, -, e⟩ | ⟨-, -, e⟩ | ⟨-, -, e⟩ |
      ⟨-, -, e⟩ | ⟨-, -, e⟩ | ⟨-, -, e⟩ <;> simp only [cs, e] at hshort ⊢
    case inr.inr.inr.inr.inr.inr.inl | inr.inr.inr.inr.inr.inr.inr => exact .inr (.inl rfl)
    case inr.inr.inr.inr.inl | inr.inr.inr.inr.inr.inl => exact .inl rfl
    all_goals exact .inl (if_neg hshort)

/-- DROP comes with the buffer full; any other byte of a frame raises nothing of its own. -/
theorem byteTaken_conds {b : Byte} {u w : State} (hw : ByteTaken b u w) :
    ((w.cnt = u.cnt ∨ w.cnt = u.cnt + 1#8) ∧ w.out.conds = u.out.conds) ∨
    (u.capacity ≤ w.cnt.toNat ∧ w.out.conds = u.out.conds ++ [.drop b]) := by
  rcases hw with ⟨-, rfl⟩ | ⟨-, -, rfl⟩ | ⟨-, hfull, rfl⟩
  · exact .inl ⟨.inl rfl, rfl⟩
  · exact .inl ⟨.inr rfl, rfl⟩
  · exact .inr ⟨hfull, rfl⟩

/-- With the buffer full no command is short, so DROP and UNDERRUN never meet. -/
theorem completed_conds {s w : State} {b : Byte} {rest : List InputEvent} (hw : ByteTaken b (takeEvent s rest) w) :
    let cs := (afterFrame w).out.conds
    cs = [] ∨ cs = [.drop b] ∨ cs = [.unknown s.app s.cmd] ∨ cs = [.drop b, .unknown s.app s.cmd] ∨
      cs = [.underrun s.app s.cmd w.len s.cnt] ∨ cs = [.underrun s.app s.cmd w.len (s.cnt + 1#8)] := by
  intro cs
  have happ : w.app = s.app := hw.sameFrame.app
  have hcmd : w.cmd = s.cmd := hw.sameFrame.cmd
  have hcs : cs = w.out.conds ++ commandConds (decodeCommand w.app w.cmd) w := rfl
  have hcap := three_le_capacity (takeEvent s rest)
  rcases byteTaken_conds hw with ⟨hcnt, hown⟩ | ⟨hfull, hown⟩ <;>
    rcases commandConds_dispatch w with hcommand | hcommand | ⟨hshort, hcommand⟩ <;>
    rw [hown, hcommand] at hcs
  · exact .inl hcs
  · rw [happ, hcmd] at hcs
    exact .inr (.inr (.inl hcs))
  · rw [happ, hcmd] at hcs
    rcases hcnt with hcnt | hcnt <;> rw [hcnt] at hcs
    · exact .inr (.inr (.inr (.inr (.inl hcs))))
    · exact .inr (.inr (.inr (.inr (.inr hcs))))
  · exact .inr (.inl hcs)
  · rw [happ, hcmd] at hcs
    exact .inr (.inr (.inr (.inl hcs)))
  · omega

theorem byte_step_conds {s t : State} {b : Byte} {rest : List InputEvent} (hi : s.input = .byte b :: rest)
    (hs : step s = .next t) :
    t.out.conds = [] ∨ t.out.conds = [.noise b] ∨ t.out.conds = [.drop b] ∨
      t.out.conds = [.unknown s.app s.cmd] ∨ t.out.conds = [.drop b, .unknown s.app s.cmd] ∨
      t.out.conds = [.underrun s.app s.cmd t.len s.cnt] ∨
      t.out.conds = [.underrun s.app s.cmd t.len (s.cnt + 1#8)] := by
  rcases byte_step_taken hi hs with ⟨-, -, rfl⟩ | ⟨-, -, -, rfl⟩ | ⟨-, rfl⟩ | ⟨w, hw, ⟨-, rfl⟩ | ⟨-, rfl⟩⟩
  · exact .inl rfl
  · exact .inr (.inl rfl)
  · exact .inl rfl
  · rw [afterFrame_len]
    rcases completed_conds hw with h | h | h | h | h | h <;> simp only [h, true_or, or_true]
  · rcases byteTaken_conds hw with ⟨-, h⟩ | ⟨-, h⟩
    · exact .inl h
    · exact .inr (.inr (.inl h))

/-- Settles O53, by the kind of event. -/
theorem conditionsOfOneTransition : Obligations.ConditionsOfOneTransition := by
  intro s e rest hi
  obtain ⟨t, hs⟩ := everyStepAnswersANextState s
  refine ⟨t, hs, ?_⟩
  cases e with
  | byte b => exact byte_step_conds hi hs
  | readError => cases (step_readError hi).symm.trans hs; rfl
  | reset => cases (step_reset hi).symm.trans hs; rfl

/-- A frame completed short of its command's payload: no write, and UNDERRUN alone. -/
theorem completed_of_short {s w : State} {b : Byte} {rest : List InputEvent}
    (hw : ByteTaken b (takeEvent s rest) w) (hshort : w.cnt.toNat < requiredPayload (decodeCommand w.app w.cmd)) :
    (afterFrame w).out.writes = [] ∧ (afterFrame w).duty = s.duty ∧
      (afterFrame w).out.conds = [.underrun w.app w.cmd w.len w.cnt] := by
  have hwrites := commandWrites_of_short hshort
  refine ⟨(completed_writes hw).trans hwrites, ?_, ?_⟩
  · rw [afterFrame_duty, hwrites, applyWrites_nil, hw.sameFrame.duty, takeEvent_duty]
  · have hle := requiredPayload_le_three (decodeCommand w.app w.cmd)
    have hcap := three_le_capacity (takeEvent s rest)
    rcases byteTaken_conds hw with ⟨-, hown⟩ | ⟨hfull, -⟩
    · rw [afterFrame_conds, commandConds_of_short hshort, hown]
      rfl
    · omega

/-- Settles O14: with every capacity at least 3 the stored count is short exactly when the length is. -/
theorem shortPayloadWritesNothing : Obligations.ShortPayloadWritesNothing := by
  intro x hx s t b rest f hinv hi hs hf happ hcmd
  have hreq : ∀ x ∈ [(0x00#8, 3), (0x01#8, 1), (0x02#8, 1), (0x03#8, 1)],
      requiredPayload (decodeCommand 0xA0#8 x.1) = x.2 := by decide
  obtain ⟨w, hw, hdone, rfl, rfl⟩ := byte_step_completed hi hs hf
  change w.app = 0xA0#8 at happ
  change w.cmd = x.1 at hcmd
  have hneed : requiredPayload (decodeCommand w.app w.cmd) = x.2 := by rw [happ, hcmd]; exact hreq x hx
  have hle := requiredPayload_le_three (decodeCommand w.app w.cmd)
  have hcap := three_le_capacity s
  have hcnt := completed_cnt hinv hw hdone
  have hiff : w.cnt.toNat < x.2 ↔ w.len.toNat < x.2 := by omega
  exact ⟨hiff, fun hshort => completed_of_short hw (hneed ▸ hiff.2 hshort)⟩

end Sys2Proof.Proofs.Completion

/-! SUPPORT. The ports (spec/20_memory.md R69): each input combination as one kind of step, and the frame port after
a transaction. -/

namespace Sys2Proof.Proofs.Ports

open Sys2Proof Sys2Proof.Machine
open Sys2Proof.Proofs.Step
open Sys2Proof.Proofs.Completion (byte_step_completed completed_cnt storedPayload_getElem?)

/-! ### The input ports -/

/-- The state a transaction steps from: MAX_DUTY sampled, the ports' event alone at the source. -/
def sampled (p : PortIn) (s : State) (input : List InputEvent) : State :=
  { s with par := { s.par with maxDuty := p.maxDuty }, input := input, out := {} }

theorem portStep_eq (p : PortIn) (s : State) : portStep p s = step (sampled p s (portEvent p).toList) := rfl

theorem portEvent_reset {p : PortIn} (h : p.rst = true) : portEvent p = some .reset := by simp [portEvent, h]

theorem portEvent_readError {p : PortIn} (hrst : p.rst = false) (herr : p.inErr = true) :
    portEvent p = some .readError := by simp [portEvent, hrst, herr]

theorem portEvent_byte {p : PortIn} (hrst : p.rst = false) (herr : p.inErr = false) (hvalid : p.inValid = true) :
    portEvent p = some (.byte p.inByte) := by simp [portEvent, hrst, herr, hvalid]

theorem portEvent_none {p : PortIn} (hrst : p.rst = false) (herr : p.inErr = false) (hvalid : p.inValid = false) :
    portEvent p = none := by simp [portEvent, hrst, herr, hvalid]

/-- Settles O56: the four input combinations, each through its kind of step, and the channel codes. -/
theorem portsPresentTheSameTransitions : Obligations.PortsPresentTheSameTransitions := by
  refine ⟨fun p s hrst => ?_, fun p s hrst herr hvalid => ?_, fun p s hrst herr hvalid => ?_,
    fun p s hrst herr => ?_, rfl, rfl, rfl, rfl⟩
  · rw [portStep_eq, portEvent_reset hrst]
    exact ⟨_, step_reset rfl, rfl, rfl, fun n => rfl⟩
  · rw [portStep_eq, portEvent_byte hrst herr hvalid]
    exact step_byte rfl
  · rw [portStep_eq, portEvent_none hrst herr hvalid]
    exact step_nil rfl
  · rw [portStep_eq, portEvent_readError hrst herr]
    exact step_readError rfl

/-! ### The frame port -/

/-- Only a byte completes a frame: the other events leave the observation without one. -/
theorem input_of_step_frame {s t : State} {f : Frame} (hs : step s = .next t) (hout : s.out.frame = none)
    (hf : t.out.frame = some f) : ∃ b rest, s.input = .byte b :: rest := by
  rcases step_cases hs with ⟨-, rfl⟩ | ⟨rest, -, rfl⟩ | ⟨rest, -, rfl⟩ | hbyte
  · simp [hout] at hf
  · simp at hf
  · simp at hf
  · exact hbyte

/-- The frame a step completes from a legal state: its count, and its payload as the cells (R121). -/
theorem step_frame_payload {s t : State} {f : Frame} (hinv : s.Inv) (hs : step s = .next t)
    (hout : s.out.frame = none) (hf : t.out.frame = some f) :
    f.cnt.toNat = min f.len.toNat t.capacity ∧ ∀ i, i < f.cnt.toNat → f.payload[i]? = some (t.cell i) := by
  have hcap : t.capacity = s.capacity := capacity_eq_of_par (parametersAreConstant s t hs)
  obtain ⟨b, rest, hi⟩ := input_of_step_frame hs hout hf
  obtain ⟨w, hw, hdone, rfl, rfl⟩ := byte_step_completed hi hs hf
  rw [hcap]
  exact ⟨completed_cnt hinv hw hdone, fun i hlt => storedPayload_getElem? hlt⟩

/-- A stored byte stands in its lane of the frame port. -/
theorem framePort_lane_of_some {cap n i : Nat} {f : Frame} {b : Byte} (hi : i < cap) (hb : f.payload[i]? = some b) :
    (framePort cap n f).payload.extractLsb' (8 * i) 8 = b :=
  (framePort_payload_lane n f hi).trans (payloadLane_of_some hb)

/-- Settles O57: the frame a transaction completes, on the port, with each stored byte in its lane. -/
theorem framePortCarriesTheCompletedFrame : Obligations.FramePortCarriesTheCompletedFrame := by
  intro p s t n hinv hs
  refine ⟨rfl, fun hnone => by rw [portOut_frame, hnone, Option.map_none], fun f hf => ?_⟩
  rw [portStep_eq] at hs
  obtain ⟨hcnt, hpayload⟩ := step_frame_payload (s := sampled p s (portEvent p).toList) hinv hs rfl hf
  refine ⟨framePort t.capacity n f, by rw [portOut_frame, hf, Option.map_some], rfl, rfl, rfl, rfl, hcnt,
    fun i hlt => ?_⟩
  have hlane : (framePort t.capacity n f).payload.extractLsb' (8 * i) 8 = t.cell i := by
    have hle : i < min f.len.toNat t.capacity := hcnt ▸ hlt
    exact framePort_lane_of_some (by omega) (hpayload i hlt)
  exact ⟨hlane, hlane ▸ hpayload i hlt⟩

end Sys2Proof.Proofs.Ports

/-! SUPPORT. A frame on the wire (spec/40_frame_assembler.md R121, R122; spec/60_exceptions.md R182;
spec/30_encoding.md R82): the state after each of its bytes, from Idle to the last one, as one invariant of the run. -/

namespace Sys2Proof.Proofs.Wire

open Sys2Proof Sys2Proof.Machine
open Sys2Proof.Proofs.Memory (payTaken_cell_same payTaken_cell_other payTaken_cnt_toNat dropTaken_cnt)
open Sys2Proof.Proofs.Step
open Sys2Proof.Proofs.Codec (decodeCommand_encode)
open Sys2Proof.Proofs.Completion

/-- A frame on the wire, with the block it reaches: its header, as many payload bytes as its length says, and the
events behind it. -/
structure WireFrame where
  app : Byte
  cmd : Byte
  len : Byte
  payload : List Byte
  rest : List InputEvent
  marker : app = 0xA0#8 ∨ app = 0xB0#8
  length : payload.length = len.toNat

/-- The frame's bytes. -/
def WireFrame.bytes (F : WireFrame) : List Byte := frameBytes F.app F.cmd F.len F.payload

/-- DROP of the frame's last byte taken, where that is a payload byte beyond the capacity (R182). -/
def WireFrame.drops (F : WireFrame) (cap k : Nat) : List Condition :=
  if 3 + cap < k then F.payload[k - 4]?.toList.map .drop else []

/-- The block `s` was, once it has taken the first `k` bytes of the frame and before the completion test. -/
structure Received (F : WireFrame) (s : State) (k : Nat) (w : State) : Prop where
  pos : w.pos.toNat = k
  app : 1 ≤ k → w.app = F.app
  cmd : 2 ≤ k → w.cmd = F.cmd
  len : 3 ≤ k → w.len = F.len
  cnt : w.cnt.toNat = min (k - 3) s.capacity
  cells : ∀ i, i < w.cnt.toNat → F.payload[i]? = some (w.cell i)
  par : w.par = s.par
  duty : w.duty = s.duty
  input : w.input = (F.bytes.drop k).map .byte ++ F.rest
  out : 1 ≤ k → w.out = { conds := F.drops s.capacity k }

/-! ### One byte of the frame -/

theorem WireFrame.bytes_length (F : WireFrame) : F.bytes.length = 3 + F.len.toNat := by
  simp only [WireFrame.bytes, frameBytes, List.length_cons, F.length]
  omega

theorem WireFrame.bytes_payload (F : WireFrame) {k : Nat} (h : 3 ≤ k) : F.bytes[k]? = F.payload[k - 3]? := by
  obtain ⟨j, rfl⟩ := Nat.exists_eq_add_of_le' h
  rfl

/-- The next byte of the frame is the source's next event. -/
theorem Received.input_cons {F : WireFrame} {s u : State} {k : Nat} (h : Received F s k u)
    (hk : k < 3 + F.len.toNat) :
    ∃ b, F.bytes[k]? = some b ∧ u.input = .byte b :: ((F.bytes.drop (k + 1)).map .byte ++ F.rest) := by
  have hlt : k < F.bytes.length := F.bytes_length ▸ hk
  refine ⟨F.bytes[k], List.getElem?_eq_getElem hlt, ?_⟩
  rw [h.input, List.drop_eq_getElem_cons hlt, List.map_cons, List.cons_append]

/-- What the byte at offset `k`, 2 or more, adds to the payload and to the conditions, row by row. -/
theorem byteTaken_stored {F : WireFrame} {s u w : State} {k : Nat} {b : Byte} {rest : List InputEvent}
    (h : Received F s k u) (hb : F.bytes[k]? = some b) (hw : ByteTaken b (takeEvent u rest) w) :
    w.cnt.toNat = min (k + 1 - 3) s.capacity ∧ (∀ i, i < w.cnt.toNat → F.payload[i]? = some (w.cell i)) ∧
      w.out.conds = F.drops s.capacity (k + 1) := by
  have hcnt := h.cnt
  have hcap : u.capacity = s.capacity := capacity_eq_of_par h.par
  have hnone (hle : k + 1 ≤ 3 + s.capacity) : F.drops s.capacity (k + 1) = [] := if_neg (by omega)
  rcases hw with ⟨hpos, rfl⟩ | ⟨hpos, hfree, rfl⟩ | ⟨hpos, hfull, rfl⟩
  · rw [takeEvent_pos, h.pos] at hpos
    subst hpos
    exact ⟨hcnt, h.cells, (hnone (by omega)).symm⟩
  · rw [takeEvent_pos, h.pos] at hpos
    rw [takeEvent_cnt, takeEvent_capacity, hcap] at hfree
    have hk : u.cnt.toNat = k - 3 := by omega
    have hnew : (payTaken b (takeEvent u rest)).cnt.toNat = u.cnt.toNat + 1 :=
      payTaken_cnt_toNat b (s := takeEvent u rest) (hcap.symm ▸ hfree)
    refine ⟨by omega, fun i hi => ?_, (hnone (by omega)).symm⟩
    by_cases heq : i = u.cnt.toNat
    · subst heq
      rw [hk, ← F.bytes_payload hpos, hb, ← hk]
      exact congrArg some (payTaken_cell_same b (takeEvent u rest)).symm
    · rw [h.cells i (by omega)]
      exact congrArg some (payTaken_cell_other b (takeEvent u rest) heq).symm
  · rw [takeEvent_pos, h.pos] at hpos
    rw [takeEvent_cnt, takeEvent_capacity, hcap] at hfull
    have hlast : F.payload[k + 1 - 4]? = some b := (F.bytes_payload hpos).symm.trans hb
    refine ⟨?_, h.cells, ?_⟩
    · rw [dropTaken_cnt, takeEvent_cnt]
      omega
    · rw [WireFrame.drops, if_pos (by omega), hlast]
      rfl

/-- A byte of LEN or of the payload. -/
theorem byteTaken_received {F : WireFrame} {s u w : State} {k : Nat} {b : Byte} (h : Received F s k u)
    (hk : k < 3 + F.len.toNat) (hb : F.bytes[k]? = some b)
    (hw : ByteTaken b (takeEvent u ((F.bytes.drop (k + 1)).map .byte ++ F.rest)) w) : Received F s (k + 1) w := by
  have htwo : 2 ≤ k := h.pos ▸ hw.two_le_pos
  have hsame := hw.sameFrame
  obtain ⟨hcnt, hcells, hconds⟩ := byteTaken_stored h hb hw
  have hlen := F.len.isLt
  refine { pos := ?_, app := fun _ => ?_, cmd := fun _ => ?_, len := fun _ => ?_, cnt := hcnt, cells := hcells,
           par := hsame.par.trans h.par, duty := hsame.duty.trans h.duty, input := hsame.input, out := fun _ => ?_ }
  · rw [hw.pos, takeEvent_pos, BitVec.toNat_add_of_lt (y := 1#9) (by simp [h.pos]; omega), h.pos]
    rfl
  · exact hsame.app.trans (h.app (by omega))
  · exact hsame.cmd.trans (h.cmd htwo)
  · rw [hw.len, takeEvent_pos, h.pos]
    split
    next heq =>
      subst heq
      exact (Option.some.inj hb).symm
    next hne => exact h.len (by omega)
  · rw [← hconds]
    exact congrArg₂ (fun f ws => ({ frame := f, writes := ws, conds := w.out.conds } : StepOut))
      hsame.frame hsame.writes

/-- The app byte. -/
theorem appTaken_received {F : WireFrame} {s u : State} (h : Received F s 0 u) :
    Received F s 1 { takeEvent u ((F.bytes.drop 1).map .byte ++ F.rest) with app := F.app, pos := 1#9 } where
  pos := rfl
  app := fun _ => rfl
  cmd := by simp
  len := by simp
  cnt := h.cnt
  cells := h.cells
  par := h.par
  duty := h.duty
  input := rfl
  out := fun _ => by rw [WireFrame.drops, if_neg (by omega)]; rfl

/-- The command byte. -/
theorem cmdTaken_received {F : WireFrame} {s u : State} (h : Received F s 1 u) :
    Received F s 2 { takeEvent u ((F.bytes.drop 2).map .byte ++ F.rest) with cmd := F.cmd, pos := 2#9 } where
  pos := rfl
  app := fun _ => h.app (Nat.le_refl 1)
  cmd := fun _ => rfl
  len := by simp
  cnt := h.cnt
  cells := h.cells
  par := h.par
  duty := h.duty
  input := rfl
  out := fun _ => by rw [WireFrame.drops, if_neg (by omega)]; rfl

/-- A step takes the frame's next byte, and completes the frame exactly at the last. -/
theorem Received.step {F : WireFrame} {s u : State} {k : Nat} (h : Received F s k u) (hk : k < 3 + F.len.toNat) :
    ∃ w, Received F s (k + 1) w ∧
      Machine.step u = .next (if k + 1 = 3 + F.len.toNat then afterFrame w else w) := by
  obtain ⟨b, hb, hi⟩ := h.input_cons hk
  obtain ⟨t, hs⟩ := everyStepAnswersANextState u
  rcases byte_step_taken hi hs with ⟨hpos, -, rfl⟩ | ⟨hpos, hA, hB, -⟩ | ⟨hpos, rfl⟩ | ⟨w, hw, hend⟩
  · rw [h.pos] at hpos
    subst hpos
    obtain rfl : F.app = b := Option.some.inj hb
    exact ⟨_, appTaken_received h, by rw [hs, if_neg (by omega)]⟩
  · rw [h.pos] at hpos
    subst hpos
    obtain rfl : F.app = b := Option.some.inj hb
    exact absurd F.marker (not_or.2 ⟨hA, hB⟩)
  · rw [h.pos] at hpos
    subst hpos
    obtain rfl : F.cmd = b := Option.some.inj hb
    exact ⟨_, cmdTaken_received h, by rw [hs, if_neg (by omega)]⟩
  · have hr := byteTaken_received h hk hb hw
    have htwo : 2 ≤ k := h.pos ▸ hw.two_le_pos
    have hpos := hr.pos
    have hlen : w.len = F.len := hr.len (by omega)
    refine ⟨w, hr, ?_⟩
    rw [hlen] at hend
    rcases hend with ⟨hdone, rfl⟩ | ⟨hopen, rfl⟩
    · rw [hs, if_pos (by omega)]
    · rw [hs, if_neg (by omega)]

/-! ### The whole frame -/

/-- At Idle with nothing stored and the frame next from the source, none of its bytes is taken. -/
theorem received_zero {F : WireFrame} {s : State} (hpos : s.pos = 0#9) (hcnt : s.cnt = 0#8)
    (hi : s.input = F.bytes.map .byte ++ F.rest) : Received F s 0 s where
  pos := by simp [hpos]
  app := by simp
  cmd := by simp
  len := by simp
  cnt := by simp [hcnt]
  cells := by simp [hcnt]
  par := rfl
  duty := rfl
  input := hi
  out := by simp

/-- Before the frame's last byte, every run is within it. -/
theorem run_received {F : WireFrame} {s : State} (h : Received F s 0 s) {k : Nat} (hk : k < 3 + F.len.toNat) :
    ∃ t, runSteps k s = .next t ∧ Received F s k t := by
  induction k with
  | zero => exact ⟨s, rfl, h⟩
  | succ k ih =>
    obtain ⟨u, hrun, hu⟩ := ih (by omega)
    obtain ⟨w, hw, hstep⟩ := hu.step (by omega)
    rw [if_neg (by omega)] at hstep
    exact ⟨w, (run_add hrun 1).trans (run_succ hstep 0), hw⟩

/-- The frame's last byte completes it. -/
theorem run_completed {F : WireFrame} {s : State} (h : Received F s 0 s) :
    ∃ w, runSteps (3 + F.len.toNat) s = .next (afterFrame w) ∧ Received F s (3 + F.len.toNat) w := by
  obtain ⟨u, hrun, hu⟩ := run_received h (k := 2 + F.len.toNat) (by omega)
  obtain ⟨w, hw, hstep⟩ := hu.step (by omega)
  have hlast : 2 + F.len.toNat + 1 = 3 + F.len.toNat := by omega
  rw [hlast] at hw hstep
  rw [if_pos rfl] at hstep
  exact ⟨w, hlast ▸ (run_add hrun 1).trans (run_succ hstep 0), hw⟩

/-- The stored payload of the whole frame: its bytes up to the capacity (R121). -/
theorem Received.storedPayload {F : WireFrame} {s w : State} (h : Received F s (3 + F.len.toNat) w) :
    Machine.storedPayload w = F.payload.take s.capacity := by
  have hcnt : w.cnt.toNat = min s.capacity F.payload.length := by
    rw [h.cnt, F.length, Nat.add_sub_cancel_left, Nat.min_comm]
  apply List.ext_getElem?
  intro i
  by_cases hi : i < w.cnt.toNat
  · rw [storedPayload_getElem? hi, List.getElem?_take_of_lt (by omega), h.cells i hi]
  · rw [List.getElem?_eq_none (by rw [storedPayload_length]; omega),
      List.getElem?_eq_none (by rw [List.length_take]; omega)]

/-- The frame that its last byte emits. -/
theorem Received.currentFrame {F : WireFrame} {s w : State} (h : Received F s (3 + F.len.toNat) w) :
    Machine.currentFrame w =
      { app := F.app, cmd := F.cmd, len := F.len, cnt := BitVec.ofNat 8 (min F.len.toNat s.capacity),
        payload := F.payload.take s.capacity } := by
  have hcnt : w.cnt = BitVec.ofNat 8 (min F.len.toNat s.capacity) := by
    rw [← Nat.add_sub_cancel_left (n := 3) (m := F.len.toNat), ← h.cnt, BitVec.ofNat_toNat, BitVec.setWidth_eq]
  rw [Machine.currentFrame, h.app (by omega), h.cmd (by omega), h.len (by omega), hcnt, h.storedPayload]

/-- Settles O50: the run within the frame, and the completion at its last byte. -/
theorem aFrameCompletesOnItsLastByte : Obligations.AFrameCompletesOnItsLastByte := by
  intro s app cmd len payload rest hpos hcnt happ hlen hi
  have hstart : Received ⟨app, cmd, len, payload, rest, happ, hlen⟩ s 0 s := received_zero hpos hcnt hi
  refine ⟨fun k hone hk => ?_, ?_⟩
  · obtain ⟨t, hrun, ht⟩ := run_received hstart hk
    have hout := ht.out hone
    exact ⟨t, hrun, by rw [hout], by rw [hout], ht.pos, ht.duty⟩
  · obtain ⟨w, hrun, hw⟩ := run_completed hstart
    refine ⟨_, hrun, congrArg some hw.currentFrame, rfl, rfl, ?_⟩
    rw [afterFrame_input, hw.input, List.drop_eq_nil_of_le (WireFrame.bytes_length _).le]
    rfl

theorem WireFrame.mem_drops_iff (F : WireFrame) (cap k : Nat) (x : Byte) :
    Condition.drop x ∈ F.drops cap (k + 1) ↔ 3 + cap ≤ k ∧ F.payload[k - 3]? = some x := by
  have hindex : k + 1 - 4 = k - 3 := by omega
  rw [WireFrame.drops, hindex]
  by_cases hk : 3 + cap ≤ k
  · rw [if_pos (Nat.lt_succ_of_le hk)]
    simp [hk]
  · rw [if_neg (by omega)]
    simp [hk]

/-- No command raises DROP. -/
theorem drop_notMem_commandConds (c : Command) (s : State) (x : Byte) : Condition.drop x ∉ commandConds c s := by
  cases c with
  | setRgb | setCh1 | setCh2 | setCh3 => simp only [commandConds]; split <;> simp
  | auxOn | auxOff | colorNop _ | auxNop _ => simp [commandConds]

/-- Settles O51: the conditions of the byte itself, to which a completed frame's command adds no DROP. -/
theorem eachByteBeyondCapacityIsDropped : Obligations.EachByteBeyondCapacityIsDropped := by
  intro s app cmd len payload rest hpos hcnt happ hlen hi k hk
  have hstart : Received ⟨app, cmd, len, payload, rest, happ, hlen⟩ s 0 s := received_zero hpos hcnt hi
  by_cases hlast : k + 1 = 3 + len.toNat
  · obtain ⟨w, hrun, hw⟩ := run_completed hstart
    refine ⟨_, hlast ▸ hrun, fun x => ?_⟩
    rw [← hlast] at hw
    rw [afterFrame_conds, List.mem_append, or_iff_left (drop_notMem_commandConds _ w x), hw.out (by omega)]
    exact WireFrame.mem_drops_iff _ _ k x
  · obtain ⟨t, hrun, ht⟩ := run_received hstart (k := k + 1) (by simp only; omega)
    refine ⟨t, hrun, fun x => ?_⟩
    rw [ht.out (by omega)]
    exact WireFrame.mem_drops_iff _ _ k x

/-! ### The mnemonic forms -/

/-- The frame is one a mnemonic stands for: a documented command with exactly the bytes it requires. -/
structure SpellsCommand (F : WireFrame) (c : Command) : Prop where
  decoded : decodeCommand F.app F.cmd = c
  required : F.len.toNat = requiredPayload c
  silent : ∀ w : State, requiredPayload c ≤ w.cnt.toNat → commandConds c w = []

theorem run_spelled {F : WireFrame} {c : Command} (hF : SpellsCommand F c) {s : State} (hpos : s.pos = 0#9)
    (hcnt : s.cnt = 0#8) (hi : s.input = F.bytes.map .byte ++ F.rest) :
    ∃ t, runSteps F.bytes.length s = .next t ∧
      writeNumbers t.out.writes = tableWrites s.par.maxDuty.toNat
        { app := F.app, cmd := F.cmd, len := F.len, cnt := F.len, payload := F.payload } ∧
      t.out.conds = [] ∧ t.pos = 0#9 ∧ t.cnt = 0#8 ∧ t.input = F.rest := by
  obtain ⟨w, hrun, hw⟩ := run_completed (received_zero hpos hcnt hi)
  have hlen : F.len.toNat ≤ s.capacity :=
    hF.required.trans_le ((requiredPayload_le_three c).trans (three_le_capacity s))
  have hout : w.out = {} := by rw [hw.out (by omega), WireFrame.drops, if_neg (by omega)]
  have hframe : currentFrame w =
      { app := F.app, cmd := F.cmd, len := F.len, cnt := F.len, payload := F.payload } := by
    rw [hw.currentFrame, Nat.min_eq_left hlen, List.take_of_length_le (F.length.trans_le hlen), BitVec.ofNat_toNat,
      BitVec.setWidth_eq]
  have hdec : decodeCommand w.app w.cmd = c := by rw [hw.app (by omega), hw.cmd (by omega), hF.decoded]
  have hfull : requiredPayload c ≤ w.cnt.toNat := by rw [hw.cnt, ← hF.required]; omega
  rw [F.bytes_length]
  refine ⟨_, hrun, ?_, ?_, rfl, rfl, ?_⟩
  · rw [afterFrame_writes, hout, List.nil_append, writeNumbers_dispatch, hframe, maxDuty, hw.par]
  · rw [afterFrame_conds, hout, List.nil_append, hdec, hF.silent w hfull]
  · rw [afterFrame_input, hw.input, List.drop_eq_nil_of_le F.bytes_length.le]
    rfl

theorem setRgb_silent (w : State) (h : requiredPayload .setRgb ≤ w.cnt.toNat) : commandConds .setRgb w = [] :=
  if_neg (Nat.not_lt.2 h)

theorem scalesFirstByte_silent {ch : Channel} {c : Command} (hc : Dispatcher.ScalesFirstByteTo ch c) (w : State)
    (h : requiredPayload c ≤ w.cnt.toNat) : commandConds c w = [] := by
  obtain ⟨hreq, hfull⟩ := hc
  obtain ⟨-, hconds⟩ := hfull w (hreq ▸ h)
  exact hconds

/-- Settles O52: each form's frame spells its command, and the command map gives its writes. -/
theorem assembledCommandsDriveTheSink : Obligations.AssembledCommandsDriveTheSink := by
  rintro s r g b v rest m rfl x hx hpos hcnt hi
  simp only [List.mem_cons, List.not_mem_nil, or_false] at hx
  rcases hx with rfl | rfl | rfl | rfl | rfl | rfl
  · exact run_spelled (F := ⟨0xA0#8, 0x00#8, 0x03#8, [r, g, b], rest, .inl rfl, rfl⟩) (c := .setRgb)
      ⟨decodeCommand_encode rfl rfl, rfl, setRgb_silent⟩ hpos hcnt hi
  · exact run_spelled (F := ⟨0xA0#8, 0x01#8, 0x01#8, [v], rest, .inl rfl, rfl⟩) (c := .setCh1)
      ⟨decodeCommand_encode rfl rfl, rfl, scalesFirstByte_silent Dispatcher.setCh1_scalesFirstByte⟩ hpos hcnt hi
  · exact run_spelled (F := ⟨0xA0#8, 0x02#8, 0x01#8, [v], rest, .inl rfl, rfl⟩) (c := .setCh2)
      ⟨decodeCommand_encode rfl rfl, rfl, scalesFirstByte_silent Dispatcher.setCh2_scalesFirstByte⟩ hpos hcnt hi
  · exact run_spelled (F := ⟨0xA0#8, 0x03#8, 0x01#8, [v], rest, .inl rfl, rfl⟩) (c := .setCh3)
      ⟨decodeCommand_encode rfl rfl, rfl, scalesFirstByte_silent Dispatcher.setCh3_scalesFirstByte⟩ hpos hcnt hi
  · exact run_spelled (F := ⟨0xB0#8, 0x01#8, 0x00#8, [], rest, .inr rfl, rfl⟩) (c := .auxOn)
      ⟨decodeCommand_encode rfl rfl, rfl, fun _ _ => rfl⟩ hpos hcnt hi
  · exact run_spelled (F := ⟨0xB0#8, 0x02#8, 0x00#8, [], rest, .inr rfl, rfl⟩) (c := .auxOff)
      ⟨decodeCommand_encode rfl rfl, rfl, fun _ _ => rfl⟩ hpos hcnt hi

end Sys2Proof.Proofs.Wire
